-- ==== Sys2Proof/Word.lean ====
section
/-! DEFINITION. The two word types of the block and the index types of its arrays (00_scope.md R9, R13;
10_state.md R22, R23). A byte is 8 bits, a sample word or command-port word is WORD_BITS = 32 bits. -/

namespace Sys2Proof

/-- A byte: a character code, a segment mask, a digit selector entry (R13). -/
abbrev Byte := BitVec 8

/-- A word of 32 bits: a sample word of BUF, the output register OUT, a word of the command port (R13). -/
abbrev Word := BitVec 32

/-- The index of a display line, 0..MAX_LINES-1 with MAX_LINES = 20 (R9, R22). -/
abbrev LineIndex := Fin 20

/-- The index of a digit position or of a digit cycle, 0..NDIGITS-1 with NDIGITS = 8 (R9, R22). -/
abbrev DigitIndex := Fin 8

/-- A word index of BUF, 0..BUF_LEN-1 with BUF_LEN = 272: what the replay pointer holds (R23, R25). -/
abbrev WordIndex := Fin 272

end Sys2Proof
end

