-- ==== Sys2Proof/Config.lean ====
section
/-! DEFINITION. The parameters of 00_scope.md rule R9: the numbers the spec fixes, the parameters it leaves to
the model's user (GLYPH, PINMAP, UNIT, SAMPLE_DIV), and the free values of the cases 93_implementation_defined.md
leaves open. A parameter or a free value is an opaque constant: no proof can see its value, so every statement
holds whatever it is. -/

namespace Sys2Proof.Config

/-! ### Sizes and positions (R9, R10) -/

/-- NDIGITS: digit positions of a line, digit cycles of the buffer (D1). -/
abbrev nDigits : Nat := 8
/-- SEG_BITS: bits of a segment byte shifted per digit cycle (R8). -/
abbrev segBits : Nat := 8
/-- SEL_BITS: bits of the digit-select byte shifted per digit cycle. -/
abbrev selBits : Nat := nDigits
/-- MAX_LINES: display lines (D2). -/
abbrev maxLines : Nat := 20
/-- GUARD_FRAMES: frames of a digit cycle without a shift-clock pulse. -/
abbrev guardFrames : Nat := 2
/-- The data frames of a digit cycle, frames 0..31 (R18). -/
abbrev dataFrames : Nat := 2 * segBits + 2 * selBits
/-- FRAMES_PER_DIGIT = GUARD_FRAMES + 2*SEG_BITS + 2*SEL_BITS = 34 (R79). -/
abbrev framesPerDigit : Nat := guardFrames + dataFrames
/-- BUF_LEN = NDIGITS * FRAMES_PER_DIGIT = 272. -/
abbrev bufLen : Nat := nDigits * framesPerDigit
/-- Bytes of BUF, four to a word (R52). -/
abbrev bufBytes : Nat := 4 * bufLen
/-- CLK_BIT: the shared shift clock's bit of a sample word (D4). -/
abbrev clkBit : Nat := 0
/-- LATCH_BIT: the shared latch strobe's bit of a sample word (D4). -/
abbrev latchBit : Nat := 1
/-- LINE_BASE: line 0's data bit; line l is at LINE_BASE + l (D4). -/
abbrev lineBase : Nat := 2
/-- LINES_MASK: the mask of all twenty line bits (R76). -/
abbrev linesMask : Word := 0x003FFFFC
/-- WORD_BITS, the native parallel width CONFIGURE programs (D3, R29). -/
abbrev wordBits : Nat := 32
/-- CHAR_LO, the lowest character the glyph table is asked for: the space. -/
abbrev charLo : Byte := 0x20
/-- CHAR_HI, the highest one: 'z'. -/
abbrev charHi : Byte := 0x7A
/-- The full stop '.', the one character ENCODE_TEXT merges (R104). -/
abbrev fullStop : Byte := 0x2E
/-- BLANK: the LineBuffer byte that lights no segment (R82). -/
abbrev blank : Byte := 0xFF
/-- DP_MASK: the decimal point's bit of a segment byte (D6, R84). -/
abbrev dpMask : Byte := 0x80
/-- TEXT_MAX: the longest text DISPLAY_TEXT carries on the port (D7). -/
abbrev textMax : Nat := 255

/-- DIGIT_SEL: the constant one-hot digit selector table, DIGIT_SEL[d] = 1 << d (R24, R85, D5). -/
def digitSel (d : DigitIndex) : Byte := 1#8 <<< d.val

/-! ### Parameters without a value in the spec (R9, R24) -/

/-- The external glyph table's contents: in [CHAR_LO, CHAR_HI] any active-high segment mask for each character
(R83, U11). -/
opaque glyphTable : Byte → Byte

/-- GLYPH: the glyph table as a total function, from a character to its active-high segment mask (R83), with no
segment lit outside [CHAR_LO, CHAR_HI] (R10). -/
def glyph (c : Byte) : Byte := if c < charLo ∨ charHi < c then 0x00 else glyphTable c

/-- SAMPLE_DIV: the sample clock divider constant; no rule reads it but CONFIGURE, which copies it (R28, U5). -/
opaque sampleDiv : Nat

/-- UNIT: the peripheral unit selector of the construction-time configuration; it has no effect on any state the
spec gives the block (R9, R204). -/
opaque unitSelector : Nat

/-- A pin identifier: opaque in the spec, any number here (R86; DESIGN CHOICE, safe: assumption 8). -/
abbrev Pin := Nat

/-- The pin map: clock pin, latch pin, and for each line a pin or UNCONNECTED, here none (R86). -/
structure PinMap where
  clkPin   : Pin
  latchPin : Pin
  linePin  : Vector (Option Pin) 20
  deriving DecidableEq, Repr, Inhabited

/-- The pins a pin map names, clock and latch first. -/
def PinMap.pins (m : PinMap) : List Pin :=
  m.clkPin :: m.latchPin :: m.linePin.toList.filterMap id

/-- U7: no two lines on one pin, no line on the clock or latch pin, the clock pin not the latch pin (the
last DESIGN CHOICE, safe: assumption 8). -/
def PinMap.valid (m : PinMap) : Bool := m.pins.Nodup

/-- The pin map of the construction-time configuration, before the check of U7. -/
opaque rawPinMap : PinMap

/-- PINMAP: the model admits every valid pin map and no other (U7 refuses an invalid one before the machine
exists): an invalid raw map is read as the valid map that connects no line (DESIGN CHOICE, safe: assumption
8). -/
def pinMap : PinMap :=
  if rawPinMap.valid then rawPinMap else ⟨0, 1, Vector.replicate 20 none⟩

/-! ### Free values -/

/-- U12: the byte a byte of BUF holds before anything has written it; stable until written (R55; DESIGN
CHOICE, safe: assumption 4). -/
opaque unwrittenByte : Nat → Byte

/-- U8: the race of 20_memory.md rule R58. Draw n says, line bit by line bit, whether a TICK inside a command
reads the old bit (1) or the new bit (0) (DEDUCED, safe: assumption 6). -/
opaque raceOldBits : Nat → Word

/-- U4: the level of a pin whose level the spec leaves unspecified, free at each observation; the first argument
numbers the observation, the second is the bit of the sample word the pin carries (DEDUCED, safe: assumption
16). -/
opaque unspecifiedLevel : Nat → Nat → Bool

end Sys2Proof.Config
end

