-- ==== Sys2Proof/Syntax.lean ====
section
/-! DEFINITION. The block's instructions: the six host commands and the replay agent's TICK, in the abstract form
of 30_encoding.md rules R70 and R71, one constructor per row of spec/opcode_table.json. -/

namespace Sys2Proof

/-- A command of the host, or the replay agent's step (R70). `line` and `digit` are mathematical integers of any
value, a character is an 8-bit code, a text is a finite sequence of codes with an explicit length (R71). -/
inductive Instr where
  /-- CONFIGURE (R142). -/
  | configure
  /-- START (R143). -/
  | start
  /-- STOP (R144). -/
  | stop
  /-- DISPLAY_TEXT(line, text) (R145). -/
  | displayText (line : Int) (text : List Byte)
  /-- SET(line, digit, char) (R146). -/
  | set (line : Int) (digit : Int) (char : Byte)
  /-- FLUSH (R147). -/
  | flush
  /-- TICK, one period of the sample clock; no command and no bit pattern (R170). -/
  | tick
  deriving DecidableEq, Repr

/-- Whether an instruction is one of the six host commands: every one but TICK (R70). -/
def Instr.isCommand : Instr → Bool
  | .configure => true
  | .start => true
  | .stop => true
  | .displayText _ _ => true
  | .set _ _ _ => true
  | .flush => true
  | .tick => false

end Sys2Proof
end

