-- ==== Sys2Proof/WellFormed.lean ====
section
/-! DEFINITION. Which abstract instructions have a form on the command port (30_encoding.md rules R71 to R74): an
index fits the 8-bit two's-complement field, a text has at most TEXT_MAX characters. The meanings of the machine
do not ask for it: they run every abstract command (95_test_vectors.md V5.12). -/

namespace Sys2Proof

/-- An integer that an 8-bit two's-complement field carries (R73). -/
def fitsIndexField (i : Int) : Bool := decide (-128 ≤ i) && decide (i ≤ 127)

/-- A text that the ARG field and the payload carry (R71, R74, U16). -/
def fitsText (text : List Byte) : Bool := decide (text.length ≤ Config.textMax)

/-- The instructions with a wire form; TICK carries no operand and none is asked of it. -/
def Instr.wellFormed : Instr → Bool
  | .configure => true
  | .start => true
  | .stop => true
  | .displayText line text => fitsIndexField line && fitsText text
  | .set line digit _ => fitsIndexField line && fitsIndexField digit
  | .flush => true
  | .tick => true

end Sys2Proof
end

