-- ==== Sys2Proof/Decode.lean ====
section
/-! DEFINITION. The command port's decoder and encoder (30_encoding.md rules R72 to R75). The port carries whole
32-bit words, so the decoder reads a list of words; the spec gives the words no byte order on the port. -/

namespace Sys2Proof

/-! ### The header format H and the payload format P (R72, R74) -/

/-- The field OP, bits 31:24. -/
def opField (h : Word) : Byte := h.extractLsb' 24 8
/-- The field LINE, bits 23:16. -/
def lineField (h : Word) : Byte := h.extractLsb' 16 8
/-- The field DIGIT, bits 15:8. -/
def digitField (h : Word) : Byte := h.extractLsb' 8 8
/-- The field ARG, bits 7:0. -/
def argField (h : Word) : Byte := h.extractLsb' 0 8
/-- The character a payload word carries, bits 7:0; bits 31:8 are ignored (R74). -/
def payloadChar (p : Word) : Byte := p.extractLsb' 0 8

/-- sext_8: an 8-bit field read as a two's-complement integer (R13, R73). -/
def sext8 (f : Byte) : Int := f.toInt
/-- zext_8: an 8-bit field read as a non-negative integer (R13, R73). -/
def zext8 (f : Byte) : Nat := f.toNat

/-- What the decoder finds at the front of the port. -/
inductive Decoded where
  /-- A whole command, and the words after it. -/
  | command (i : Instr) (rest : List Word)
  /-- A header whose OP is reserved, 0x00 or 0x07 to 0xFF, and the words after it: one word is consumed (R75). -/
  | illegalOp (header : Word) (rest : List Word)
  /-- No word, or a DISPLAY_TEXT whose payload has not wholly arrived: nothing to execute yet. -/
  | incomplete
  deriving DecidableEq, Repr

/-- The number of payload words that follow a header: LEN after OP = 0x04, none after any other (R74). -/
def payloadLength (h : Word) : Nat :=
  if opField h = 0x04#8 then zext8 (argField h) else 0

/-- DISPLAY_TEXT's decoding: LEN payload words must stand on the port after the header (R74). -/
def decodeText (h : Word) (rest : List Word) : Decoded :=
  if rest.length < zext8 (argField h) then .incomplete
  else .command (.displayText (sext8 (lineField h)) ((rest.take (zext8 (argField h))).map payloadChar))
    (rest.drop (zext8 (argField h)))

/-- The decoder, total on any words: fields a command does not use are ignored (R73), a reserved OP is rejected
by name (R75). It never answers TICK, which has no bit pattern (R70). -/
def decode : List Word → Decoded
  | [] => .incomplete
  | h :: rest =>
    if opField h = 0x01#8 then .command .configure rest
    else if opField h = 0x02#8 then .command .start rest
    else if opField h = 0x03#8 then .command .stop rest
    else if opField h = 0x04#8 then decodeText h rest
    else if opField h = 0x05#8 then
      .command (.set (sext8 (lineField h)) (sext8 (digitField h)) (argField h)) rest
    else if opField h = 0x06#8 then .command .flush rest
    else .illegalOp h rest

/-! ### The encoder -/

/-- A header word from its four fields (R72). -/
def headerWord (op line digit arg : Byte) : Word := op ++ line ++ digit ++ arg

/-- The 8-bit two's-complement field of an index that fits it (R73). -/
def indexField (i : Int) : Byte := BitVec.ofInt 8 i

/-- A payload word, the character in bits 7:0 and zeros above (R74). -/
def payloadWord (c : Byte) : Word := c.setWidth 32

/-- The port words of an instruction, unused fields zero (R72 to R74); TICK has none. -/
def encode : Instr → List Word
  | .configure => [headerWord 0x01 0 0 0]
  | .start => [headerWord 0x02 0 0 0]
  | .stop => [headerWord 0x03 0 0 0]
  | .displayText line text =>
    headerWord 0x04 (indexField line) 0 (BitVec.ofNat 8 text.length) :: text.map payloadWord
  | .set line digit char => [headerWord 0x05 (indexField line) (indexField digit) char]
  | .flush => [headerWord 0x06 0 0 0]
  | .tick => []

/-- How many words an instruction takes on the port: the table's "length_words" (R74). -/
def Instr.portLength : Instr → Nat
  | .displayText _ text => 1 + text.length
  | .tick => 0
  | .configure => 1
  | .start => 1
  | .stop => 1
  | .set _ _ _ => 1
  | .flush => 1

/-- The words of an instruction given as one number w of nbits bits, word j in bits 32j+31:32j: the header, then
as many payload words as it asks for. Bits above nbits are 0. -/
def tableWords (nbits w : Nat) : List Word :=
  let bits := w % 2 ^ nbits
  let header := BitVec.ofNat 32 bits
  header :: (List.range (payloadLength header)).map (fun j => BitVec.ofNat 32 (bits >>> (32 * (j + 1))))

/-- The instruction this decoder reads from an opcode-table row's bits. The one row of zero words is TICK's, which
no decoder sees (R70): asked for a row of no bits, this answers TICK and reads nothing (DESIGN CHOICE, safe:
assumption 12). -/
def decodeTableWord (nbits w : Nat) : Option Instr :=
  if nbits = 0 then some .tick
  else
    match decode (tableWords nbits w) with
    | .command i _ => some i
    | .illegalOp _ _ => none
    | .incomplete => none

end Sys2Proof
end

