-- ==== Sys2Proof/Machine/State.lean ====
section
/-! DEFINITION. The state of the block (10_state.md rules R20 to R39), the reasons a step can stop, and the state
right after reset. Everything in State is plain data. -/

namespace Sys2Proof.Machine

/-- LIFE, the lifecycle state (R21). -/
inductive Life where
  | unconfigured
  | configured
  | running
  | stopped
  deriving DecidableEq, Repr

/-- The numeric encoding of LIFE, where a number is wanted (R21, D10). -/
def Life.code : Life → BitVec 2
  | .unconfigured => 0
  | .configured => 1
  | .running => 2
  | .stopped => 3

/-- The kinds of the spec's own FAULT outcome (60_exceptions.md R195). -/
inductive FaultKind where
  /-- A command outside its legal lifecycle states. -/
  | protocol
  /-- A header whose OP is reserved. -/
  | illegalOp
  deriving DecidableEq, Repr

/-- FAULT_CODE of a kind; 0 stands for no fault (R195). -/
def FaultKind.code : FaultKind → BitVec 3
  | .protocol => 1
  | .illegalOp => 2

/-- DESC's next field: not constructed yet, or pointing to the descriptor itself (R27). -/
inductive NextPointer where
  | none
  | self
  deriving DecidableEq, Repr

/-- DESC, the DMA descriptor (R27). -/
structure Descriptor where
  base     : Nat
  length   : Nat
  next     : NextPointer
  attached : Bool
  deriving DecidableEq, Repr

/-- The two interrupt bits of INT_ENA and of INT_RAW (R32, R33). -/
structure InterruptBits where
  dscrErr : Bool
  eof     : Bool
  deriving DecidableEq, Repr

/-- One line's LineBuffer: NDIGITS segment bytes (R22). -/
abbrev LineBuffer := Vector Byte 8

/-- LB: MAX_LINES LineBuffers (R22). -/
abbrev LineBuffers := Vector LineBuffer 20

/-- BUF's memory: the bytes written so far, byte j of word a at address 4a + j (R52, D16), addresses strictly
rising (`Memory.wf`). An address that is not listed has not been written: it holds no recorded value. -/
abbrev Memory := List Host.Cell

/-- The turns of the two agents and the one instant between them that matters: data of the environment, in the
order in which they happen (R11, R58, R232). -/
inductive Turn where
  /-- The command agent takes the next command from the port. -/
  | command
  /-- One period of the sample clock: the replay agent's TICK. -/
  | tick
  /-- The command in progress returns to the host: its race with the replay agent ends (R58). -/
  | returned
  deriving DecidableEq, Repr

/-- The state of the block: R20's tuple, then the model's own fields for the outside world, the race and the free
values. -/
structure State where
  /-- LIFE, 4 values (R21). -/
  life      : Life
  /-- LB[l][d], 20 lines of 8 bytes (R22). -/
  lb        : LineBuffers
  /-- BUF, 272 words of 32 bits, held as 1088 bytes (R23, R52). -/
  mem       : Memory
  /-- RP, the replay pointer, 0..271 (R25). -/
  rp        : WordIndex
  /-- OUT, the 32-bit output register (R26). -/
  out       : Word
  /-- OUT_VALID, 1 bit (R26). -/
  outValid  : Bool
  /-- DESC, the DMA descriptor (R27). -/
  desc      : Descriptor
  /-- CLKDIV, the sample clock divider (R28). -/
  clkdiv    : Nat
  /-- WIDTH, the programmed word width (R29). -/
  width     : Nat
  /-- ROUTE, 1 bit: the pin routing has been programmed (R30). -/
  route     : Bool
  /-- TX_EN, 1 bit: continuous transmission is enabled (R31). -/
  txEn      : Bool
  /-- INT_ENA, 2 bits (R32). -/
  intEna    : InterruptBits
  /-- INT_RAW, 2 bits (R33). -/
  intRaw    : InterruptBits
  /-- FAULT, 1 sticky bit (R34). -/
  fault     : Bool
  /-- FAULT_CODE, 3 bits (R34, R39). -/
  faultCode : BitVec 3
  /-- The model's own: the words the host has put on the command port, first word first (R72). -/
  port      : List Word
  /-- The model's own: which agent moves next, as far as the environment has fixed it (R232; DESIGN CHOICE: assumption 3). -/
  turns     : List Turn
  /-- The model's own: BUFold of a DISPLAY_TEXT or FLUSH in progress while Running (R58); none outside one. -/
  race      : Option Memory
  /-- The model's own: how many free values have been drawn. -/
  draws     : Nat
  deriving DecidableEq, Repr

/-- Why a step stops with a fault. No behaviour the spec describes stops the block: its own FAULT outcome (R194) is
state, held in FAULT and FAULT_CODE, and the block goes on. So no reason exists and none is ever raised. -/
inductive Fault
  deriving DecidableEq, Repr

/-- Why an instruction is refused. -/
inductive Refusal where
  /-- Raised by an arm of exec whose instruction has no meaning yet; no arm raises it. Safe. -/
  | notModelled (mnemonic : String)
  deriving DecidableEq, Repr

/-- The two interrupt bits, both 0. -/
def InterruptBits.clear : InterruptBits := ⟨false, false⟩

/-- The state after reset, which is construction (R39, R220): the values of R39's table; BUF with nothing written;
for the entries R39 calls unspecified, and for the model's own fields, the values of assumptions 1 and 2
(DESIGN CHOICE, unsafe). -/
def State.reset : State where
  life      := .unconfigured
  lb        := Vector.replicate 20 (Vector.replicate 8 Config.blank)
  mem       := []
  rp        := 0
  out       := 0
  outValid  := false
  desc      := ⟨0, 0, .none, false⟩
  clkdiv    := 0
  width     := 0
  route     := false
  txEn      := false
  intEna    := .clear
  intRaw    := .clear
  fault     := false
  faultCode := 0
  port      := []
  turns     := []
  race      := none
  draws     := 0

end Sys2Proof.Machine
end

