-- ==== Sys2Proof/Machine/Memory.lean ====
section
/-! DEFINITION. BUF's memory: one byte, then one word, read and written (20_memory.md rules R50 to R55). Byte order
is decided here and nowhere else: byte j of word a stands at address 4a + j (R52, D16). -/

namespace Sys2Proof.Machine

/-- Replace bit b of w by v: the primitive SetBit (R14). -/
def setBit (w : Word) (b : Nat) (v : Bool) : Word :=
  (w &&& ~~~(1#32 <<< b)) ||| ((if v then 1#32 else 0#32) <<< b)

/-- The byte recorded at an address, none where nothing has been written. -/
def Memory.lookup : Memory → Nat → Option Byte
  | [], _ => none
  | (k, v) :: m, a => if a = k then some v else Memory.lookup m a

/-- The byte at an address; where nothing has been written, the free value of U12 (DESIGN CHOICE, safe: assumption 4). -/
def Memory.readByte (m : Memory) (a : Nat) : Byte :=
  (Memory.lookup m a).getD (Config.unwrittenByte a)

/-- Record a byte at an address, keeping the addresses strictly rising. -/
def Memory.writeByte : Memory → Nat → Byte → Memory
  | [], a, v => [(a, v)]
  | (k, w) :: m, a, v =>
    if a < k then (a, v) :: (k, w) :: m
    else if a = k then (a, v) :: m
    else (k, w) :: Memory.writeByte m a v

/-- MemRead(a, 1): the word BUF[a] (R14). -/
def Memory.readWord (m : Memory) (a : Nat) : Word :=
  Memory.readByte m (4 * a + 3) ++ Memory.readByte m (4 * a + 2) ++
    Memory.readByte m (4 * a + 1) ++ Memory.readByte m (4 * a)

/-- MemWrite(a, 1, w): the whole word BUF[a] (R14). -/
def Memory.writeWord (m : Memory) (a : Nat) (w : Word) : Memory :=
  Memory.writeByte (Memory.writeByte (Memory.writeByte (Memory.writeByte m
    (4 * a) (w.extractLsb' 0 8)) (4 * a + 1) (w.extractLsb' 8 8))
    (4 * a + 2) (w.extractLsb' 16 8)) (4 * a + 3) (w.extractLsb' 24 8)

/-- The canonical form: addresses strictly rising, all inside BUF. An unlisted address holds no recorded value, so
no entry can equal what an unlisted address holds. -/
abbrev Memory.wf (m : Memory) : Prop :=
  m.Pairwise (fun c c' => c.1 < c'.1) ∧ ∀ c ∈ m, c.1 < Config.bufBytes

/-- Write one word after another, the word of index a computed from what BUF[a] holds at that moment. Irreducible, so
that no elaborator unfolds a rebuild of the whole buffer; the kernel still evaluates it. -/
@[irreducible] def Memory.updateWords (m : Memory) (indexes : List Nat) (f : Nat → Word → Word) : Memory :=
  indexes.foldl (fun m a => Memory.writeWord m a (f a (Memory.readWord m a))) m

/-- What a TICK inside a command reads (R58): every line bit is that of the old word where `pick` has a 1 and that
of the new word where it has a 0; the control bits and the unused bits are the old word's. -/
def raceWord (pick old new : Word) : Word :=
  (old &&& (pick ||| ~~~Config.linesMask)) ||| (new &&& (Config.linesMask &&& ~~~pick))

end Sys2Proof.Machine
end

