-- ==== Sys2Proof/Machine/Flags.lean ====
section
/-! DEFINITION. The block's only flag-like bits, INT_ENA and INT_RAW (10_state.md R32, R33, R35): what arms them,
sets them and clears them. FAULT is in Machine/Ops.lean, with the operation that sets it. -/

namespace Sys2Proof.Machine

/-- INT_ENA <- 11, START's arming of both conditions (R32, R143). -/
def State.armInterrupts (s : State) : State := { s with intEna := ⟨true, true⟩ }

/-- INT_ENA <- 00, CONFIGURE's reset of the output unit (R142). -/
def State.disarmInterrupts (s : State) : State := { s with intEna := .clear }

/-- INT_RAW <- 00 (R142, R143). -/
def State.clearPending (s : State) : State := { s with intRaw := .clear }

/-- INT_RAW.EOF <- 1, the wrap of the replay pointer (R33, R171). -/
def State.setEof (s : State) : State := { s with intRaw := { s.intRaw with eof := true } }

end Sys2Proof.Machine
end

