-- ==== Sys2Proof/Machine/Operands.lean ====
section
/-! DEFINITION. The commands' operands: the range checks on an index (42_controller_commands.md R141) and the cells
of LB (00_scope.md R14), the block's general registers. -/

namespace Sys2Proof.Machine

/-- A line index inside [0, MAX_LINES), compared as a mathematical integer (R141 step 2, R150). -/
def lineInRange (line : Int) : Bool := decide (0 ≤ line) && decide (line < Config.maxLines)

/-- A digit index inside [0, NDIGITS) (R141 step 3). -/
def digitInRange (digit : Int) : Bool := decide (0 ≤ digit) && decide (digit < Config.nDigits)

/-- The line an index names, once its range check has passed. -/
def toLine (line : Int) : LineIndex := Fin.ofNat 20 line.toNat

/-- The digit position an index names, once its range check has passed. -/
def toDigit (digit : Int) : DigitIndex := Fin.ofNat 8 digit.toNat

/-- LB[l][d], a read (R14). -/
def LineBuffers.cell (lb : LineBuffers) (l : LineIndex) (d : DigitIndex) : Byte := (lb.get l).get d

/-- LB[l] <- m, all cells of one line. -/
def LineBuffers.setLine (lb : LineBuffers) (l : LineIndex) (m : LineBuffer) : LineBuffers := lb.set l m

/-- LB[l][d] <- v, one cell (R14). -/
def LineBuffers.setCell (lb : LineBuffers) (l : LineIndex) (d : DigitIndex) (v : Byte) : LineBuffers :=
  lb.set l ((lb.get l).set d v)

end Sys2Proof.Machine
end

