-- ==== Sys2Proof/Machine/Ops.lean ====
section
/-! DEFINITION. What the commands share: the FAULT outcome, the block's stand-in for taking an exception
(60_exceptions.md R194, R200), and the checks every command makes before it changes any state
(42_controller_commands.md R141). There is no return from an exception: nothing is saved, nothing is restored, and
only reset clears FAULT (R201). -/

namespace Sys2Proof.Machine

/-- raise Fault(kind): FAULT <- 1, and FAULT_CODE <- the kind's code if FAULT was 0; nothing else changes (R194). -/
def State.raiseFault (s : State) (kind : FaultKind) : State :=
  { s with fault := true, faultCode := if s.fault then s.faultCode else kind.code }

/-- What the checks of R141 find, in the order in which they are made. It is also what the optional diagnostic
hook of R151 would be told: no rule reads it but the command itself. -/
inductive Verdict where
  /-- Step 1: FAULT is set; the command is a no-op. -/
  | stickyFault
  /-- Step 2: the line index is out of range; a silent no-op (R191). -/
  | lineOutOfRange
  /-- Step 3: the digit index is out of range; a silent no-op (R196). -/
  | digitOutOfRange
  /-- Step 4: LIFE is outside the command's legal set; Fault(PROTOCOL). -/
  | protocol
  /-- Step 5: the command's own pseudocode runs. -/
  | run
  deriving DecidableEq, Repr

/-- The lifecycle states in which CONFIGURE is legal (R141's table). -/
def legalForConfigure (life : Life) : Bool := life == .unconfigured

/-- The lifecycle states in which every other command is legal (R141's table). -/
def legalOnceConfigured (life : Life) : Bool := life != .unconfigured

/-- The checks of R141. A command without a line or a digit operand passes none for it. -/
def State.check (s : State) (line digit : Option Int) (legal : Life → Bool) : Verdict :=
  if s.fault then .stickyFault
  else if line.any (fun l => !lineInRange l) then .lineOutOfRange
  else if digit.any (fun d => !digitInRange d) then .digitOutOfRange
  else if !legal s.life then .protocol
  else .run

/-- A command: its checks, then its own effect (R140, R141). -/
def State.command (s : State) (line digit : Option Int) (legal : Life → Bool) (effect : State) :
    Host.Outcome State Fault Refusal :=
  match s.check line digit legal with
  | .stickyFault => .next s
  | .lineOutOfRange => .next s
  | .digitOutOfRange => .next s
  | .protocol => .next (s.raiseFault .protocol)
  | .run => .next effect

/-- A write of BUF by a command: while Running the replay agent may read it before the command returns, so the old
contents are kept until then (R58); otherwise there is no reader (R62). -/
def State.rebuild (s : State) (mem : Memory) : State :=
  { s with mem := mem, race := if s.life = .running then some s.mem else none }

end Sys2Proof.Machine
end

