-- ==== Sys2Proof/Machine/Builder.lean ====
section
/-! DEFINITION. The FrameBufferBuilder (41_frame_builder.md) over the frame layout of 30_encoding.md R78 to R80:
CTRL, BITVAL, COLD_FILL, BUILD_LINE, BUILD_ALL and the two DECODE functions. -/

namespace Sys2Proof.Machine

/-! ### The place of a word in the layout (R78, R80) -/

/-- The word index of frame f of digit cycle d. -/
def wordAt (d f : Nat) : Nat := d * Config.framesPerDigit + f

/-- The frame index of a word. -/
def frameOf (a : Nat) : Nat := a % Config.framesPerDigit

/-- The digit cycle of a word of BUF. -/
def cycleOf (a : Nat) : DigitIndex := Fin.ofNat 8 (a / Config.framesPerDigit)

/-- The pair of a data word: the two frames 2k and 2k+1 carry bit k of the cycle. -/
def pairOf (a : Nat) : Nat := frameOf a / 2

/-- A word of a data frame, frames 0..31; frames 32 and 33 are guard frames. -/
def isDataWord (a : Nat) : Bool := decide (frameOf a < Config.dataFrames)

/-- LINEBIT(l) (R121). -/
def lineBit (l : LineIndex) : Nat := Config.lineBase + l.val

/-- CTRL(f): the control bits of frame f, zeros elsewhere (R122). -/
def ctrl (f : Nat) : Word :=
  if f < Config.dataFrames then BitVec.ofNat 32 (f % 2) else if f = Config.dataFrames then 0 else 2

/-- The data bit pair k of digit cycle d carries for a line with the given segment bytes: the segment byte's bits,
then the digit selector's, each MSB first (R78, R123). -/
def pairBit (line : LineBuffer) (d : DigitIndex) (k : Nat) : Bool :=
  if k < Config.segBits then (line.get d).getLsbD (7 - k)
  else (Config.digitSel d).getLsbD (7 - (k - Config.segBits))

/-- BITVAL(l, d, k) (R123). -/
def bitVal (lb : LineBuffers) (l : LineIndex) (d : DigitIndex) (k : Nat) : Bool := pairBit (lb.get l) d k

/-! ### The builder's procedures -/

/-- The word COLD_FILL writes at index a (R124). -/
def coldWord (a : Nat) : Word := Config.linesMask ||| ctrl (frameOf a)

/-- COLD_FILL: every word of BUF, in increasing word index (R124). -/
def coldFill (m : Memory) : Memory :=
  Memory.updateWords m (List.range Config.bufLen) (fun a _ => coldWord a)

/-- The data words of BUF in increasing word index (R57, R126). -/
def dataWords : List Nat := (List.range Config.bufLen).filter isDataWord

/-- A data word with the bits of the given lines set to what they carry there, each other bit kept. -/
def buildWord (lb : LineBuffers) (lines : List LineIndex) (a : Nat) (w : Word) : Word :=
  lines.foldl (fun w l => setBit w (lineBit l) (bitVal lb l (cycleOf a) (pairOf a))) w

/-- Build some lines: every data word read, the lines' bits replaced, and written back, in increasing word
index. -/
def buildLines (lb : LineBuffers) (lines : List LineIndex) (m : Memory) : Memory :=
  Memory.updateWords m dataWords (buildWord lb lines)

/-- BUILD_LINE(l) (R126). -/
def buildLine (lb : LineBuffers) (l : LineIndex) (m : Memory) : Memory := buildLines lb [l] m

/-- The lines in increasing line index. -/
def allLines : List LineIndex := List.finRange 20

/-- BUILD_ALL, composing each data word once from all lines, as R129 allows; that it leaves what building the lines
one after another leaves is an obligation of its own (DEDUCED, safe: assumption 11). -/
def buildAll (lb : LineBuffers) (m : Memory) : Memory := buildLines lb allLines m

/-! ### DECODE, the inverse of the builder (R130) -/

/-- The bits of line l in the clock frames of the 8 pairs from frame f0 of digit cycle d on, first bit most
significant. -/
def decodeBits (m : Memory) (l : LineIndex) (d : DigitIndex) (f0 : Nat) : Byte :=
  (List.range 8).foldl
    (fun s k => (s <<< 1) ||| (if (Memory.readWord m (wordAt d (f0 + 2 * k + 1))).getLsbD (lineBit l) then 1#8 else 0#8))
    0#8

/-- DECODE_SEG(BUF, l, d). -/
def decodeSeg (m : Memory) (l : LineIndex) (d : DigitIndex) : Byte := decodeBits m l d 0

/-- DECODE_SEL(BUF, l, d). -/
def decodeSel (m : Memory) (l : LineIndex) (d : DigitIndex) : Byte := decodeBits m l d 16

end Sys2Proof.Machine
end

