-- ==== Sys2Proof/Machine/Glyph.lean ====
section
/-! DEFINITION. The GlyphEncoder (40_glyph_encoder.md): ENCODE and ENCODE_TEXT, pure functions of their arguments
and of the glyph table. The table is an argument here; the machine passes Config.glyph. -/

namespace Sys2Proof.Machine

/-- ENCODE under a glyph table (R101): blank outside [space, 'z'], else the table's mask inverted once. -/
def encodeWith (glyph : Byte → Byte) (c : Byte) : Byte :=
  if c < Config.charLo ∨ Config.charHi < c then Config.blank else ~~~glyph c

/-- Light the decimal point in the last mask: clear DP_MASK (R104, R84). -/
def lightPoint (mask : Byte) : Byte := mask &&& ~~~Config.dpMask

/-- The decimal point merged into the mask emitted last (R104). -/
def mergePoint : List Byte → List Byte
  | [] => []
  | [m] => [lightPoint m]
  | m :: ms => m :: mergePoint ms

/-- The scan of ENCODE_TEXT over the characters not read yet, with the masks emitted so far (R104). -/
def scanText (glyph : Byte → Byte) (n : Nat) : List Byte → List Byte → List Byte
  | [], out => out
  | c :: text, out =>
    if c = Config.fullStop ∧ 0 < out.length then scanText glyph n text (mergePoint out)
    else if out.length = n then out
    else scanText glyph n text (out ++ [encodeWith glyph c])

/-- ENCODE_TEXT under a glyph table: the scan, padded on the right with blanks to n masks (R103, R104). -/
def encodeTextWith (glyph : Byte → Byte) (text : List Byte) (n : Nat) : List Byte :=
  let out := scanText glyph n text []
  out ++ List.replicate (n - out.length) Config.blank

/-- ENCODE (R101). -/
def encodeChar (c : Byte) : Byte := encodeWith Config.glyph c

/-- ENCODE_TEXT(text, NDIGITS), as a LineBuffer: slot 0 is digit position 0 (R104). -/
def encodeLine (text : List Byte) : LineBuffer :=
  Vector.ofFn fun d : Fin 8 => (encodeTextWith Config.glyph text Config.nDigits).getD d Config.blank

end Sys2Proof.Machine
end

