-- ==== Sys2Proof/Machine/Controller.lean ====
section
/-! DEFINITION. The six host commands (42_controller_commands.md): the effect of each, R141's step 5, and its meaning,
the effect behind the checks. -/

namespace Sys2Proof.Machine

/-- CONFIGURE's own pseudocode (R142). -/
def State.configured (s : State) : State :=
  { s.disarmInterrupts.clearPending with
    txEn := false
    clkdiv := Config.sampleDiv
    width := Config.wordBits
    route := true
    mem := coldFill s.mem
    desc := ⟨0, Config.bufLen, .self, false⟩
    life := .configured }

/-- START's own pseudocode (R143). -/
def State.started (s : State) : State :=
  { s.clearPending.armInterrupts with
    rp := 0
    desc := { s.desc with attached := true }
    txEn := true
    life := .running }

/-- STOP's own pseudocode (R144). -/
def State.halted (s : State) : State :=
  { s with txEn := false, life := if s.life = .running then .stopped else s.life }

/-- DISPLAY_TEXT's own pseudocode (R145). -/
def State.textShown (s : State) (l : LineIndex) (text : List Byte) : State :=
  let lb := LineBuffers.setLine s.lb l (encodeLine text)
  { s.rebuild (buildLine lb l s.mem) with lb := lb }

/-- SET's own pseudocode (R146). -/
def State.cellSet (s : State) (l : LineIndex) (d : DigitIndex) (char : Byte) : State :=
  { s with lb := LineBuffers.setCell s.lb l d (encodeChar char) }

/-- FLUSH's own pseudocode (R147). -/
def State.flushed (s : State) : State := s.rebuild (buildAll s.lb s.mem)

/-- CONFIGURE (R142). -/
def execConfigure (s : State) : Host.Outcome State Fault Refusal :=
  s.command none none legalForConfigure s.configured

/-- START (R143). -/
def execStart (s : State) : Host.Outcome State Fault Refusal :=
  s.command none none legalOnceConfigured s.started

/-- STOP (R144). -/
def execStop (s : State) : Host.Outcome State Fault Refusal :=
  s.command none none legalOnceConfigured s.halted

/-- DISPLAY_TEXT (R145). -/
def execDisplayText (line : Int) (text : List Byte) (s : State) : Host.Outcome State Fault Refusal :=
  s.command (some line) none legalOnceConfigured (s.textShown (toLine line) text)

/-- SET (R146). -/
def execSet (line digit : Int) (char : Byte) (s : State) : Host.Outcome State Fault Refusal :=
  s.command (some line) (some digit) legalOnceConfigured (s.cellSet (toLine line) (toDigit digit) char)

/-- FLUSH (R147). -/
def execFlush (s : State) : Host.Outcome State Fault Refusal :=
  s.command none none legalOnceConfigured s.flushed

end Sys2Proof.Machine
end

