-- ==== Sys2Proof/Machine/Replay.lean ====
section
/-! DEFINITION. The replay engine (43_replay_engine.md R170 to R174): TICK, the replay agent's one step. -/

namespace Sys2Proof.Machine

/-- MemRead(RP, 1) by the replay agent: the word of BUF, or, inside a command that is rebuilding it, a word whose
line bits are old or new by a free value (R58, R170; DEDUCED, safe: assumption 6). -/
def State.sampledWord (s : State) : Word :=
  match s.race with
  | none => Memory.readWord s.mem s.rp
  | some old =>
    raceWord (Config.raceOldBits s.draws) (Memory.readWord old s.rp) (Memory.readWord s.mem s.rp)

/-- RP after a TICK: (RP + 1) mod 272 (R150, R170). -/
def nextWord (rp : WordIndex) : WordIndex := Fin.ofNat 272 (rp.val + 1)

/-- TICK's own pseudocode (R170): OUT takes the sampled word, RP moves on, and the wrap from 271 to 0 sets
INT_RAW.EOF (R171). A racing read uses one draw of free values. -/
def State.ticked (s : State) : State :=
  { s with
    out := s.sampledWord
    outValid := true
    rp := nextWord s.rp
    intRaw := if s.rp.val = 271 then s.setEof.intRaw else s.intRaw
    draws := if s.race.isSome then s.draws + 1 else s.draws }

/-- TICK (R170): enabled exactly when LIFE = Running, FAULT or not. A sample period in any other lifecycle state
passes with the replay agent idle (DEDUCED, safe: assumption 7). -/
def execTick (s : State) : Host.Outcome State Fault Refusal :=
  if s.life = .running then .next s.ticked else .next s

end Sys2Proof.Machine
end

