-- ==== Sys2Proof/Machine/Dispatch.lean ====
section
/-! DEFINITION. One arm per instruction. -/

namespace Sys2Proof.Machine

def exec (i : Instr) (s : State) : Host.Outcome State Fault Refusal :=
  match i with
  | .configure => Sys2Proof.Machine.execConfigure s
  | .start => Sys2Proof.Machine.execStart s
  | .stop => Sys2Proof.Machine.execStop s
  | .displayText line text => Sys2Proof.Machine.execDisplayText line text s
  | .set line digit char => Sys2Proof.Machine.execSet line digit char s
  | .flush => Sys2Proof.Machine.execFlush s
  | .tick => Sys2Proof.Machine.execTick s

end Sys2Proof.Machine
end

