-- ==== Sys2Proof/Machine/Fetch.lean ====
section
/-! DEFINITION. Which agent moves next, and with which instruction (00_scope.md R11; 20_memory.md R57, R58;
30_encoding.md R74, R75; 70_reset_and_hazards.md R232). The environment's order stands in State as a list of
turns; every list is allowed, so every interleaving of commands and TICKs is one state's run (DESIGN
CHOICE, safe: assumption 3). -/

namespace Sys2Proof.Machine

/-- What the next step does. -/
inductive Move where
  /-- An instruction runs, in the state its agent sees. -/
  | run (i : Instr) (s : State)
  /-- No instruction runs: the agents wait, or the decoder has dealt with a reserved header. -/
  | settle (s : State)

/-- A header with a reserved OP: the decoder raises Fault(ILLEGAL_OP), unless FAULT is already set, in which case
nothing changes (R75, R199). -/
def State.rejectHeader (s : State) : State := if s.fault then s else s.raiseFault .illegalOp

/-- The command agent takes the next command from the port. The command before it has returned (R57), so no race
is left. The command's words are consumed whatever its outcome (R74); with no whole command on the port the agent
waits. -/
def State.fetchCommand (s : State) : Move :=
  match decode s.port with
  | .command i rest => .run i { s with port := rest, race := none }
  | .illegalOp _ rest => .settle (State.rejectHeader { s with port := rest, race := none })
  | .incomplete => .settle s

/-- Whether the port holds a whole command, or a header to reject. -/
def State.commandWaiting (s : State) : Bool :=
  match decode s.port with
  | .incomplete => false
  | .command _ _ => true
  | .illegalOp _ _ => true

/-- Where the environment has fixed no turn: the command in progress has returned; a waiting command goes first, else
the replay agent takes its step, which execTick leaves idle unless LIFE = Running (DESIGN CHOICE, unsafe:
assumption 3). -/
def State.defaultMove (s : State) : Move :=
  if s.commandWaiting then s.fetchCommand else .run .tick { s with race := none }

/-- The next move. -/
def State.nextMove (s : State) : Move :=
  match s.turns with
  | .command :: turns => State.fetchCommand { s with turns := turns }
  | .tick :: turns => .run .tick { s with turns := turns }
  | .returned :: turns => .settle { s with turns := turns, race := none }
  | [] => s.defaultMove

/-- The state with an opcode-table row's instruction next on the port and the command agent's turn next; for the row
of no bits, TICK, the replay agent's turn next (DESIGN CHOICE, safe: assumption 12). -/
def State.placeNext (s : State) (nbits w : Nat) : State :=
  if nbits = 0 then { s with turns := .tick :: s.turns }
  else { s with port := tableWords nbits w ++ s.port, turns := .command :: s.turns }

end Sys2Proof.Machine
end

