-- ==== Sys2Proof/Machine/Step.lean ====
section
/-! DEFINITION. One step of the block: the agent whose turn it is takes its one step. -/

namespace Sys2Proof.Machine

/-- One step. -/
def step (s : State) : Host.Outcome State Fault Refusal :=
  match s.nextMove with
  | .run i s' => exec i s'
  | .settle s' => .next s'

/-- The state whose very next step runs the instruction of an opcode-table row's bits. -/
def State.withFetchWord (s : State) (nbits w : Nat) : State := s.placeNext nbits w

end Sys2Proof.Machine
end

