-- ==== Sys2Proof/Machine/Pins.lean ====
section
/-! DEFINITION. The pins (43_replay_engine.md R172): levels are a function of OUT, OUT_VALID, ROUTE and PINMAP, read
off the state by an observer; no rule of the block reads them. -/

namespace Sys2Proof.Machine

/-- The wires the block drives: the two shared ones and one per line (R2). -/
inductive Signal where
  | clk
  | latch
  | data (l : LineIndex)
  deriving DecidableEq, Repr

/-- The bit of the sample word a wire carries: fixed by R76 and not by PINMAP (R86). -/
def Signal.bit : Signal → Nat
  | .clk => Config.clkBit
  | .latch => Config.latchBit
  | .data l => lineBit l

/-- The wire a pin map gives a pin; none for a pin it does not name. An unconnected line has no pin (R172). -/
def signalAt (m : Config.PinMap) (p : Config.Pin) : Option Signal :=
  if p = m.clkPin then some .clk
  else if p = m.latchPin then some .latch
  else (allLines.find? fun l => m.linePin.get l == some p).map .data

/-- The level of a wire at the observer's observation n: OUT's bit, not inverted (D31), once the pins are routed and
OUT has been loaded; before that a free value (U4). -/
def State.signalLevel (s : State) (n : Nat) (g : Signal) : Bool :=
  if s.route && s.outValid then s.out.getLsbD g.bit else Config.unspecifiedLevel n g.bit

/-- The level of a pin of the block under a pin map; none for a pin the block does not have. -/
def State.pinLevelUnder (m : Config.PinMap) (s : State) (n : Nat) (p : Config.Pin) : Option Bool :=
  (signalAt m p).map (s.signalLevel n)

/-- The level of a pin of the block. -/
def State.pinLevel (s : State) (n : Nat) (p : Config.Pin) : Option Bool :=
  State.pinLevelUnder Config.pinMap s n p

end Sys2Proof.Machine
end

