-- ==== Sys2Proof/Machine/Receiver.lean ====
section
/-! DEFINITION. The reference receiver of one line (43_replay_engine.md R175, R176): outside the block, an observer
of the values OUT takes. Its shift behaviour is the spec's own general knowledge (G1). -/

namespace Sys2Proof.Machine

/-- A rising edge of CLK between two consecutive values of OUT (R175). -/
def clkRises (prev cur : Word) : Bool := !prev.getLsbD Config.clkBit && cur.getLsbD Config.clkBit

/-- A rising edge of LATCH (R175). -/
def latchRises (prev cur : Word) : Bool := !prev.getLsbD Config.latchBit && cur.getLsbD Config.latchBit

/-- The pair of shift registers of one display: the 16-bit chain SR_l and its outputs Q_l (R176). -/
structure Receiver where
  sr : BitVec 16
  q  : BitVec 16
  deriving DecidableEq, Repr

/-- The bit taken at a rising edge of CLK: the data bit of the word in which CLK is 1; where it changes in the same
TICK, the drawn one (R176, U9). -/
def takenBit (l : LineIndex) (draw : Bool) (prev cur : Word) : Bool :=
  if prev.getLsbD (lineBit l) = cur.getLsbD (lineBit l) then cur.getLsbD (lineBit l) else draw

/-- What one TICK does to the receiver of line l (R176). -/
def Receiver.receive (r : Receiver) (l : LineIndex) (draw : Bool) (prev cur : Word) : Receiver :=
  let sr :=
    if clkRises prev cur then (r.sr <<< 1) ||| (if takenBit l draw prev cur then 1#16 else 0#16) else r.sr
  ⟨sr, if latchRises prev cur then sr else r.q⟩

/-- n TICKs of the replay agent with no command among them, and what the receiver of line l holds after them; the
draws of R176 are an argument, so that a statement can hold for all of them. -/
def watchTicks (l : LineIndex) (draw : Nat → Bool) : Nat → State → Receiver → State × Receiver
  | 0, s, r => (s, r)
  | n + 1, s, r => watchTicks l draw n s.ticked (r.receive l (draw n) s.out s.ticked.out)

/-- n TICKs of the replay agent with no command among them. -/
def tickTimes : Nat → State → State
  | 0, s => s
  | n + 1, s => tickTimes n s.ticked

end Sys2Proof.Machine
end

