-- ==== Sys2Proof/Safety.lean ====
section
/-! DEFINITION. What claims about the block are stated in: the good states (60_exceptions.md R194), the invariants of
the state (10_state.md R27, R31 to R34, R37, R38) and what the buffer shows of a line. -/

namespace Sys2Proof.Machine

/-- A good state: FAULT = 0, the premise of every claim about the block (R34, R194). -/
def State.good (s : State) : Bool := !s.fault

/-- What R37 says of the word at index a: the control bits are CTRL's, bits 22 to 31 are 0, and in a guard frame
every line bit is 1. -/
structure WordFramed (a : Nat) (w : Word) : Prop where
  clk    : w.getLsbD Config.clkBit = (ctrl (frameOf a)).getLsbD Config.clkBit
  latch  : w.getLsbD Config.latchBit = (ctrl (frameOf a)).getLsbD Config.latchBit
  unused : ∀ i, 22 ≤ i → w.getLsbD i = false
  guard  : isDataWord a = false → ∀ l : LineIndex, w.getLsbD (lineBit l) = true

/-- R37 of a whole buffer. -/
def BufferFramed (m : Memory) : Prop := ∀ a, a < 272 → WordFramed a (Memory.readWord m a)

/-- Line l is cold: every one of its line bits is 1 (R38). -/
def LineCold (m : Memory) (l : LineIndex) : Prop :=
  ∀ a, a < 272 → (Memory.readWord m a).getLsbD (lineBit l) = true

/-- Line l is built from some segment bytes: its line bits in the data frames are those BUILD_LINE writes for them,
and 1 in the guard frames (R38). -/
def LineBuilt (m : Memory) (l : LineIndex) (line : LineBuffer) : Prop :=
  ∀ a, a < 272 → (Memory.readWord m a).getLsbD (lineBit l) =
    if isDataWord a then pairBit line (cycleOf a) (pairOf a) else true

/-- R38, first part: a line is cold, or built from some earlier value of its LineBuffer. -/
def LineColdOrBuilt (m : Memory) (l : LineIndex) : Prop := LineCold m l ∨ ∃ line, LineBuilt m l line

/-- The buffer shows the present LineBuffer of line l: no SET on it is pending (R38, last part). -/
def LineShown (s : State) (l : LineIndex) : Prop :=
  ∀ d, decodeSeg s.mem l d = LineBuffers.cell s.lb l d

/-- The block's control state in every state a run reaches (R27, R30 to R34, R36, R39). -/
structure ControlInv (s : State) : Prop where
  /-- TX_EN = 1 exactly when LIFE = Running (R31). -/
  txEn      : s.txEn = decide (s.life = .running)
  /-- ROUTE = 1 exactly once CONFIGURE has run (R30). -/
  route     : s.route = decide (s.life ≠ .unconfigured)
  /-- The descriptor is attached exactly once START has run (R27). -/
  attached  : s.desc.attached = decide (s.life = .running ∨ s.life = .stopped)
  /-- Once constructed, the descriptor covers BUF and points to itself (R27). -/
  desc      : s.life ≠ .unconfigured → s.desc.base = 0 ∧ s.desc.length = Config.bufLen ∧ s.desc.next = .self
  /-- Both interrupt enables are 1 exactly once START has run (R32). -/
  intEna    : s.intEna = ⟨s.desc.attached, s.desc.attached⟩
  /-- INT_RAW.DSCR_ERR is never set (R33). -/
  dscrErr   : s.intRaw.dscrErr = false
  /-- The pins carry nothing before the first START (R26). -/
  outValid  : s.desc.attached = false → s.outValid = false
  /-- FAULT_CODE is 0 exactly when FAULT is 0, and else the code of a kind (R34, R195). -/
  faultCode : if s.fault then s.faultCode = 1 ∨ s.faultCode = 2 else s.faultCode = 0

/-- What holds of BUF, and of the old contents while a command races, in every state a run reaches (R37, R58). -/
structure BufferInv (s : State) : Prop where
  /-- The memory is in canonical form, inside BUF (R53). -/
  wf        : Memory.wf s.mem
  /-- R37, once CONFIGURE has run. -/
  framed    : s.life ≠ .unconfigured → BufferFramed s.mem
  /-- A race is on only while Running, and its old contents are a buffer of the same form. -/
  race      : ∀ old, s.race = some old → s.life = .running ∧ Memory.wf old ∧ BufferFramed old
  /-- Bits 22 to 31 of OUT are 0 and CLK and LATCH are never high together, once OUT is loaded (R175, R172). -/
  out       : s.outValid = true →
    (∀ i, 22 ≤ i → s.out.getLsbD i = false) ∧ ¬(s.out.getLsbD Config.clkBit = true ∧ s.out.getLsbD Config.latchBit = true)

/-- The invariant of the block. -/
structure Inv (s : State) : Prop where
  control : ControlInv s
  buffer  : BufferInv s

/-- R38's invariant: every line is cold or built, in BUF and in the old contents of BUF a racing command keeps. -/
structure LinesInv (s : State) : Prop where
  /-- R38, once CONFIGURE has run. -/
  buffer : s.life ≠ .unconfigured → ∀ l, LineColdOrBuilt s.mem l
  /-- The old contents of a race were such a BUF (R58). -/
  race   : ∀ old, s.race = some old → ∀ l, LineColdOrBuilt old l

end Sys2Proof.Machine
end

