-- ==== Sys2Proof/Certificates/Slice0/Obligations.lean ====
section
/-! DEFINITION. The statements for the provers, from the spec's numbered rules. Numbers that a rule states are written
here as the rule writes them, not through the model's own tables. -/

open Sys2Proof Sys2Proof.Machine

/-! ### Reset -/

/-- R39: the values the table gives for reset, and that the block then waits for its first command. The 0xFF of the
cells, RP = 0 and the FAULT pair are the spec's decisions D9, D11, D15; that an idle block's step changes nothing is
the model's (log entries 3 and 7). -/
def Obligations.ResetHoldsTheTablesValues : Prop :=
  let s := State.reset
  s.life = .unconfigured ∧ (∀ l d, LineBuffers.cell s.lb l d = 0xFF#8) ∧ (∀ a, Memory.lookup s.mem a = none) ∧
    s.rp = 0 ∧ s.outValid = false ∧ s.desc.attached = false ∧ s.route = false ∧ s.txEn = false ∧
    s.intEna = ⟨false, false⟩ ∧ s.intRaw = ⟨false, false⟩ ∧ s.fault = false ∧ s.faultCode = 0 ∧ step s = .next s

/-- R10: the fixed parameters meet the constraints: bit positions distinct and below WORD_BITS, CLK_BIT and LATCH_BIT
among them, SEL_BITS = NDIGITS and SEG_BITS = 8, DIGIT_SEL one-hot with distinct entries, GLYPH 0x00 outside
[0x20, 0x7A] whatever the table holds, DP_MASK one bit; and R79: the frame count is 34, the buffer 272 words. -/
def Obligations.ParametersMeetTheirConstraints : Prop :=
  Config.framesPerDigit = 34 ∧ Config.bufLen = 272 ∧
    Config.nDigits = 8 ∧ Config.segBits = 8 ∧ Config.selBits = Config.nDigits ∧
    Config.clkBit < Config.wordBits ∧ Config.latchBit < Config.wordBits ∧ Config.clkBit ≠ Config.latchBit ∧
    (∀ l : LineIndex, lineBit l ≠ Config.clkBit ∧ lineBit l ≠ Config.latchBit ∧ lineBit l < Config.wordBits) ∧
    (∀ l l' : LineIndex, lineBit l = lineBit l' → l = l') ∧
    (∀ d d' : DigitIndex, Config.digitSel d = Config.digitSel d' → d = d') ∧
    (∀ (d : DigitIndex) (i : Fin 8), (Config.digitSel d).getLsbD i = decide (i = d)) ∧
    (∀ c : Byte, c.toNat < 0x20 ∨ 0x7A < c.toNat → Config.glyph c = 0x00#8) ∧
    (∀ i : Fin 8, Config.dpMask.getLsbD i = decide (i = 7))

/-! ### One step -/

/-- R57, R74: on the command agent's turn, a whole command on the port is what the step runs, its words consumed, the
command before it returned. Without a fixed turn a waiting command goes first (the model's choice, log entry 3). -/
def Obligations.StepRunsTheDecodedCommand : Prop :=
  ∀ (s : State) (i : Instr) (rest : List Word), decode s.port = .command i rest →
    (∀ turns, s.turns = .command :: turns →
      step s = exec i { s with turns := turns, port := rest, race := none }) ∧
    (s.turns = [] → step s = exec i { s with port := rest, race := none })

/-- R170, R173: on the replay agent's turn the step is TICK; without a fixed turn and without a whole command on the
port it is TICK too, with no command in progress; a command's return ends its race; an incomplete command waits. How
the turns are fixed is the model's choice (log entry 3), and that an incomplete command waits is deduced from R74 (log
entry 15). -/
def Obligations.StepTakesTheOtherTurns : Prop :=
  ∀ s : State,
    (∀ turns, s.turns = .tick :: turns → step s = exec .tick { s with turns := turns }) ∧
    (s.turns = [] → decode s.port = .incomplete → step s = exec .tick { s with race := none }) ∧
    (∀ turns, s.turns = .returned :: turns → step s = .next { s with turns := turns, race := none }) ∧
    (∀ turns, s.turns = .command :: turns → decode s.port = .incomplete → step s = .next { s with turns := turns })

/-- R75: a header whose OP is 0x00 or 0x07 to 0xFF raises Fault(ILLEGAL_OP) and consumes one word (the spec's D20);
with FAULT already set the word is consumed and nothing changes (R199). This on the command agent's turn, and without
a fixed turn, where the header goes first as a command would (the model's choice, log entry 3). -/
def Obligations.ReservedHeaderRaisesIllegalOp : Prop :=
  ∀ (s : State) (h : Word) (rest : List Word), s.port = h :: rest →
    ((h.extractLsb' 24 8).toNat = 0 ∨ 7 ≤ (h.extractLsb' 24 8).toNat) →
    (∀ turns, s.turns = .command :: turns →
      (s.fault = false → step s = .next { s with
        turns := turns, port := rest, race := none, fault := true, faultCode := 2 }) ∧
      (s.fault = true → step s = .next { s with turns := turns, port := rest, race := none })) ∧
    (s.turns = [] →
      (s.fault = false → step s = .next { s with port := rest, race := none, fault := true, faultCode := 2 }) ∧
      (s.fault = true → step s = .next { s with port := rest, race := none }))

/-- No step stops and no instruction is refused. Of a command the rules say so: it ends as an effect, a no-op or the
FAULT outcome, all next states (R140, R194, R200), and TICK cannot fail where it is enabled, LIFE = Running (R170).
The rest is the model's: that TICK answers the same state outside Running, where the spec has no TICK step, is log
entry 7, and that a block which waits takes a step is log entries 3 and 15. -/
def Obligations.EveryStepAnswersANextState : Prop :=
  (∀ (i : Instr) (s : State), ∃ t, exec i s = .next t) ∧ ∀ s : State, ∃ t, step s = .next t

/-- The model's own host interface (log entry 12): an opcode-table word placed by withFetchWord is what the next step
runs, and the inputs behind it are as they were. -/
def Obligations.PlacedWordRunsNext : Prop :=
  ∀ (s : State) (nbits w : Nat) (i : Instr), decodeTableWord nbits w = some i →
    step (s.withFetchWord nbits w) = exec i (if i = .tick then s else { s with race := none })

/-! ### The command port -/

/-- T7: words of the command vectors, written out, decode to the commands they stand for; one per command. -/
def Obligations.WordsOfTheVectorsDecode : Prop :=
  decode [0x01000000#32] = .command .configure [] ∧ decode [0x02000000#32] = .command .start [] ∧
    decode [0x03000000#32] = .command .stop [] ∧ decode [0x06ABCDEF#32] = .command .flush [] ∧
    decode [0x04000003#32, 0x41#32, 0x2E#32, 0x42#32] = .command (.displayText 0 [0x41, 0x2E, 0x42]) [] ∧
    decode [0x05130738#32] = .command (.set 19 7 0x38) [] ∧
    decode [0x05FF0031#32] = .command (.set (-1) 0 0x31) []

/-- R73 (the spec's D19): LINE and DIGIT are sign-extended, SET's character is ARG; the fields a command does not use
have no effect. -/
def Obligations.HeaderFieldsAreReadAsTheRuleSays : Prop :=
  ∀ (h : Word) (rest : List Word),
    (h.extractLsb' 24 8 = 1#8 → decode (h :: rest) = .command .configure rest) ∧
    (h.extractLsb' 24 8 = 2#8 → decode (h :: rest) = .command .start rest) ∧
    (h.extractLsb' 24 8 = 3#8 → decode (h :: rest) = .command .stop rest) ∧
    (h.extractLsb' 24 8 = 6#8 → decode (h :: rest) = .command .flush rest) ∧
    (h.extractLsb' 24 8 = 5#8 → decode (h :: rest) =
      .command (.set (h.extractLsb' 16 8).toInt (h.extractLsb' 8 8).toInt (h.extractLsb' 0 8)) rest) ∧
    (h.extractLsb' 24 8 = 4#8 → (h.extractLsb' 0 8).toNat = 0 →
      decode (h :: rest) = .command (.displayText (h.extractLsb' 16 8).toInt []) rest)

/-- R74 (the spec's D19): after a DISPLAY_TEXT header come exactly LEN payload words, one character each in bits 7:0.
That with fewer on the port there is no command yet is deduced from it, not said by it (log entry 15). -/
def Obligations.DisplayTextTakesLenPayloadWords : Prop :=
  ∀ (h : Word) (payload rest : List Word), h.extractLsb' 24 8 = 4#8 →
    ((h.extractLsb' 0 8).toNat = payload.length → decode (h :: (payload ++ rest)) =
      .command (.displayText (h.extractLsb' 16 8).toInt (payload.map fun p => p.extractLsb' 0 8)) rest) ∧
    (payload.length < (h.extractLsb' 0 8).toNat → decode (h :: payload) = .incomplete)

/-- R72 to R74 (the spec's D19): for every command with a wire form, with every operand at every value the encoding
admits, decoding its encoding gives it back and leaves the words after it. -/
def Obligations.DecodeOfEncodeIsTheCommand : Prop :=
  ∀ (i : Instr) (rest : List Word), i.wellFormed = true → i.isCommand = true →
    decode (encode i ++ rest) = .command i rest

/-- R70, R71, R74: what the decoder answers is a command with a wire form, never TICK, and it takes exactly the words
the table gives that command. -/
def Obligations.DecodedCommandsAreWellFormed : Prop :=
  ∀ (ws : List Word) (i : Instr) (rest : List Word), decode ws = .command i rest →
    i.wellFormed = true ∧ i.isCommand = true ∧ ∃ used, ws = used ++ rest ∧ used.length = i.portLength

/-! ### The GlyphEncoder -/

/-- R101: ENCODE is blank outside [0x20, 0x7A] whatever the table holds, and inside it the table's mask inverted; the
machine encodes with the parameter GLYPH. -/
def Obligations.EncodeInvertsTheTableInsideTheRange : Prop :=
  (∀ (g : Byte → Byte) (c : Byte), encodeWith g c = if c.toNat < 0x20 ∨ 0x7A < c.toNat then 0xFF#8 else ~~~(g c)) ∧
    ∀ c, encodeChar c = encodeWith Config.glyph c

/-- R110: exactly n masks; without a full stop, slot j is ENCODE of character j and blank behind the text; a full stop
after a text changes at most bit DP_MASK of one slot, from 1 to 0. Here n is at least 1 (R103). -/
def Obligations.EncodeTextFillsItsSlots : Prop :=
  ∀ (g : Byte → Byte) (text : List Byte) (n : Nat), 1 ≤ n →
    (encodeTextWith g text n).length = n ∧
    ((∀ c ∈ text, c ≠ 0x2E#8) → ∀ j, j < n →
      (encodeTextWith g text n)[j]? = some ((text.map (encodeWith g)).getD j 0xFF#8)) ∧
    (text ≠ [] → ∃ slot, ∀ j, j < n → (encodeTextWith g (text ++ [0x2E#8]) n)[j]? =
      ((encodeTextWith g text n)[j]?).map fun m => if j = slot then m &&& 0x7F#8 else m)

/-- R104, R105, R107 (the spec's D24, D25): read a text as its characters c_j, each with the full stops that follow
it, none but the first character a full stop itself; every text is of this form. Slot j holds ENCODE(c_j), with the
point lit when at least one full stop follows c_j; the slots behind the text are blank, and the characters from c_n
on, full stops included, have no effect. -/
def Obligations.EncodeTextPlacesEachCharacter : Prop :=
  ∀ (g : Byte → Byte) (groups : List (Byte × Nat)) (n : Nat), 1 ≤ n → (∀ p ∈ groups.tail, p.1 ≠ 0x2E#8) →
    ∀ j, j < n →
      (encodeTextWith g (groups.flatMap fun p => p.1 :: List.replicate p.2 0x2E#8) n)[j]? =
        some (match groups[j]? with
          | some p => if 1 ≤ p.2 then encodeWith g p.1 &&& 0x7F#8 else encodeWith g p.1
          | none => 0xFF#8)

/-- R105 (the spec's D24): a full stop that is the first character produced takes slot 0 as ENCODE('.'); a full stop
right behind it merges into that slot. -/
def Obligations.LeadingFullStopTakesASlot : Prop :=
  ∀ (g : Byte → Byte) (c : Byte) (text : List Byte) (n : Nat), 1 ≤ n →
    (c ≠ 0x2E#8 → (encodeTextWith g (0x2E#8 :: c :: text) n)[0]? = some (encodeWith g 0x2E#8)) ∧
    (encodeTextWith g [0x2E#8] n)[0]? = some (encodeWith g 0x2E#8) ∧
    (encodeTextWith g [0x2E#8, 0x2E#8] n)[0]? = some (encodeWith g 0x2E#8 &&& 0x7F#8)

/-- R106: after the first mask, two full stops in a row give what one gives. -/
def Obligations.RepeatedFullStopsActAsOne : Prop :=
  ∀ (g : Byte → Byte) (before after : List Byte) (n : Nat), 1 ≤ n → before ≠ [] →
    encodeTextWith g (before ++ 0x2E#8 :: 0x2E#8 :: after) n = encodeTextWith g (before ++ 0x2E#8 :: after) n

/-- R107 (the spec's D25): with n characters that are not full stops read, a full stop still merges into slot n-1, and
the next other character ends the scan: it and everything after it, full stops included, are ignored. -/
def Obligations.TruncationIgnoresTheRest : Prop :=
  ∀ (g : Byte → Byte) (full after : List Byte) (c : Byte) (stops : Nat), 1 ≤ full.length →
    (∀ x ∈ full, x ≠ 0x2E#8) → c ≠ 0x2E#8 →
    encodeTextWith g (full ++ List.replicate stops 0x2E#8 ++ c :: after) full.length =
      encodeTextWith g (full ++ List.replicate stops 0x2E#8) full.length ∧
    ∀ j, j < full.length → (encodeTextWith g (full ++ [0x2E#8]) full.length)[j]? =
      ((encodeTextWith g full full.length)[j]?).map fun m => if j = full.length - 1 then m &&& 0x7F#8 else m

/-! ### The FrameBufferBuilder -/

/-- R126: BUILD_LINE(l) writes the line bit of every data frame of every digit cycle, segment byte then digit
selector, MSB first, both frames of a pair alike, and changes nothing else. -/
def Obligations.BuildLineWritesItsLineBits : Prop :=
  ∀ (lb : LineBuffers) (l : LineIndex) (m : Memory),
    (∀ (d : DigitIndex) (f i : Nat), f < 34 → (Memory.readWord (buildLine lb l m) (d * 34 + f)).getLsbD i =
      if f < 32 ∧ i = 2 + l then
        (if f < 16 then (LineBuffers.cell lb l d).getLsbD (7 - f / 2) else decide (7 - (f / 2 - 8) = d.val))
      else (Memory.readWord m (d * 34 + f)).getLsbD i) ∧
    ∀ a, 1088 ≤ a → Memory.readByte (buildLine lb l m) a = Memory.readByte m a

/-- R127 (b): the bits BUILD_LINE(l) writes depend on LB[l] alone, and running it twice leaves the same memory as
running it once. -/
def Obligations.BuildLineIsIdempotent : Prop :=
  ∀ (lb lb' : LineBuffers) (l : LineIndex) (m : Memory), Memory.wf m → lb.get l = lb'.get l →
    buildLine lb' l (buildLine lb l m) = buildLine lb l m

/-- R120, R127 (a): two lines built in either order leave the same memory. -/
def Obligations.LinesBuildInEitherOrder : Prop :=
  ∀ (lb : LineBuffers) (l l' : LineIndex) (m : Memory), Memory.wf m →
    buildLine lb l (buildLine lb l' m) = buildLine lb l' (buildLine lb l m)

/-- R129: composing each data word once from all twenty lines leaves the very memory that building the lines one after
another, in increasing line index, leaves. -/
def Obligations.BuildAllBuildsEveryLineInTurn : Prop :=
  ∀ (lb : LineBuffers) (m : Memory), Memory.wf m →
    buildAll lb m = (List.finRange 20).foldl (fun m l => buildLine lb l m) m

/-- R130: after BUILD_LINE(l), DECODE gives back the line's segment bytes and the digit selectors, both frames of a
pair carry the same bit, and a cold line decodes to 0xFF everywhere. -/
def Obligations.DecodeInvertsBuildLine : Prop :=
  ∀ (lb : LineBuffers) (l : LineIndex) (m : Memory) (d : DigitIndex),
    decodeSeg (buildLine lb l m) l d = LineBuffers.cell lb l d ∧
    decodeSel (buildLine lb l m) l d = 1#8 <<< d.val ∧
    (∀ k, k < 16 → (Memory.readWord (buildLine lb l m) (d * 34 + 2 * k)).getLsbD (2 + l) =
      (Memory.readWord (buildLine lb l m) (d * 34 + 2 * k + 1)).getLsbD (2 + l)) ∧
    (LineCold m l → decodeSeg m l d = 0xFF#8 ∧ decodeSel m l d = 0xFF#8)

/-! ### The checks and the FAULT outcome -/

/-- R191: a line index out of range, of any integer value, makes the command a no-op in every state, whatever its other
operands: no state changes, not even FAULT. -/
def Obligations.OutOfRangeLineIsASilentNoOp : Prop :=
  ∀ (s : State) (line digit : Int) (text : List Byte) (char : Byte), line < 0 ∨ 20 ≤ line →
    exec (.displayText line text) s = .next s ∧ exec (.set line digit char) s = .next s

/-- R194, R195 (the spec's D15, D29): a command in range, outside its legal lifecycle states, raises Fault(PROTOCOL):
FAULT and FAULT_CODE change and nothing else. -/
def Obligations.WrongLifecycleRaisesProtocol : Prop :=
  ∀ (s : State) (line digit : Int) (text : List Byte) (char : Byte), s.fault = false →
    (s.life ≠ .unconfigured → exec .configure s = .next { s with fault := true, faultCode := 1 }) ∧
    (s.life = .unconfigured →
      exec .start s = .next { s with fault := true, faultCode := 1 } ∧
      exec .stop s = .next { s with fault := true, faultCode := 1 } ∧
      exec .flush s = .next { s with fault := true, faultCode := 1 } ∧
      (0 ≤ line → line < 20 →
        exec (.displayText line text) s = .next { s with fault := true, faultCode := 1 } ∧
        (0 ≤ digit → digit < 8 → exec (.set line digit char) s = .next { s with fault := true, faultCode := 1 })))

/-- R34 (the spec's D15): once FAULT = 1 every command is a no-op, no step clears FAULT or changes FAULT_CODE, and the
replay agent keeps stepping while LIFE = Running. -/
def Obligations.FaultIsSticky : Prop :=
  (∀ (i : Instr) (s : State), s.fault = true → i.isCommand = true → exec i s = .next s) ∧
  (∀ s t : State, s.fault = true → step s = .next t → t.fault = true ∧ t.faultCode = s.faultCode) ∧
  (∀ s : State, s.fault = true → s.life = .running → ∃ t, exec .tick s = .next t ∧ t.outValid = true ∧
    t.rp.val = (s.rp.val + 1) % 272)

/-- R148: the lifecycle as a transition system: the state each command leads to from each state, where its indexes are
in range and FAULT = 0, and that no command leads back to Unconfigured. -/
def Obligations.LifecycleFollowsTheTable : Prop :=
  ∀ (i : Instr) (s t : State), i.isCommand = true → s.fault = false → exec i s = .next t →
    (i = .configure → (s.life = .unconfigured → t.life = .configured ∧ t.fault = false) ∧
      (s.life ≠ .unconfigured → t.life = s.life ∧ t.fault = true ∧ t.faultCode = 1)) ∧
    (i = .start → s.life ≠ .unconfigured → t.life = .running ∧ t.rp = 0 ∧ t.fault = false) ∧
    (i = .stop → s.life ≠ .unconfigured → t.fault = false ∧
      t.life = if s.life = .configured then .configured else .stopped) ∧
    (i ≠ .configure → i ≠ .start → i ≠ .stop → s.life ≠ .unconfigured → t.life = s.life ∧ t.fault = false) ∧
    (i ≠ .configure → s.life = .unconfigured → t.life = .unconfigured) ∧
    (t.life = .unconfigured → s.life = .unconfigured)

/-! ### The commands -/

/-- R142 and R124: CONFIGURE from Unconfigured clears the enables, programs divider, width, routing and descriptor,
writes the cold buffer, and leaves the rest; from any other state it raises Fault(PROTOCOL). -/
def Obligations.ConfigureBuildsTheColdBlock : Prop :=
  ∀ s : State, s.fault = false →
    (s.life = .unconfigured → ∃ t, exec .configure s = .next t ∧
      (∀ a, a < 272 → Memory.readWord t.mem a =
        if a % 34 = 33 then 0x003FFFFE#32 else if a % 2 = 0 then 0x003FFFFC#32 else 0x003FFFFD#32) ∧
      (∀ b, 1088 ≤ b → Memory.readByte t.mem b = Memory.readByte s.mem b) ∧
      t = { s with
        txEn := false, intEna := ⟨false, false⟩, intRaw := ⟨false, false⟩, clkdiv := Config.sampleDiv, width := 32,
        route := true, mem := t.mem, desc := ⟨0, 272, .self, false⟩, life := .configured }) ∧
    (s.life ≠ .unconfigured → exec .configure s = .next { s with fault := true, faultCode := 1 })

/-- R143: START resets the replay pointer (the spec's D11) and the pending bits (D14), attaches the descriptor, arms
both interrupts, enables transmission and enters Running, writing nothing else; from Unconfigured it raises
Fault(PROTOCOL). -/
def Obligations.StartRestartsTheReplay : Prop :=
  ∀ s : State, s.fault = false →
    (s.life ≠ .unconfigured → exec .start s = .next { s with
      rp := 0, intRaw := ⟨false, false⟩, desc := { s.desc with attached := true }, intEna := ⟨true, true⟩,
      txEn := true, life := .running }) ∧
    (s.life = .unconfigured → exec .start s = .next { s with fault := true, faultCode := 1 })

/-- R144: STOP clears TX_EN and takes Running to Stopped, writing nothing else (that it changes nothing when not
Running is the spec's D30); after it the block is not Running, and no instruction but START makes it Running or
changes OUT, so no TICK has an effect until the next START. From Unconfigured it raises Fault(PROTOCOL) (D29). -/
def Obligations.StopHaltsTheReplay : Prop :=
  ∀ s : State, s.fault = false →
    (s.life ≠ .unconfigured → exec .stop s = .next { s with
      txEn := false, life := if s.life = .running then .stopped else s.life }) ∧
    (s.life = .unconfigured → exec .stop s = .next { s with fault := true, faultCode := 1 }) ∧
    (∀ t, s.life ≠ .unconfigured → exec .stop s = .next t → t.life ≠ .running) ∧
    (∀ (i : Instr) (u v : State), u.life ≠ .running → i ≠ .start → exec i u = .next v →
      v.life ≠ .running ∧ v.out = u.out ∧ (i = .tick → v = u))

/-- R145: DISPLAY_TEXT writes the eight cells of its line from the text and that line's bit of the data words of BUF
from those cells, and nothing else: every other cell, bit, byte of memory and register stays. While Running the old
contents are kept for the race (the model's field, DEDUCED from R58: log entry 6). In range but Unconfigured it raises
Fault(PROTOCOL), and out of range it is a no-op. -/
def Obligations.DisplayTextRewritesItsLine : Prop :=
  ∀ (s : State) (line : LineIndex) (text : List Byte), s.fault = false →
    (s.life ≠ .unconfigured → ∃ t, exec (.displayText line.val text) s = .next t ∧
      (∀ l d, LineBuffers.cell t.lb l d =
        if l = line then (encodeTextWith Config.glyph text 8).getD d 0xFF#8 else LineBuffers.cell s.lb l d) ∧
      (∀ (d : DigitIndex) (f i : Nat), f < 34 → (Memory.readWord t.mem (d * 34 + f)).getLsbD i =
        if f < 32 ∧ i = 2 + line then
          (if f < 16 then (LineBuffers.cell t.lb line d).getLsbD (7 - f / 2) else decide (7 - (f / 2 - 8) = d.val))
        else (Memory.readWord s.mem (d * 34 + f)).getLsbD i) ∧
      (∀ b, ¬(b / 4 < 272 ∧ b / 4 % 34 < 32) → Memory.readByte t.mem b = Memory.readByte s.mem b) ∧
      t = { s with lb := t.lb, mem := t.mem, race := if s.life = .running then some s.mem else none }) ∧
    (s.life = .unconfigured →
      exec (.displayText line.val text) s = .next { s with fault := true, faultCode := 1 }) ∧
    (∀ far : Int, far < 0 ∨ 20 ≤ far → exec (.displayText far text) s = .next s)

/-- R146: SET writes one cell of LB with ENCODE(char), whatever the character, a full stop included, and nothing else:
BUF keeps every byte. In range but Unconfigured it raises Fault(PROTOCOL); with an index out of range (the digit's
check is the spec's D23) it is a no-op. -/
def Obligations.SetWritesOneCell : Prop :=
  ∀ (s : State) (line : LineIndex) (digit : DigitIndex) (char : Byte), s.fault = false →
    (s.life ≠ .unconfigured → ∃ t, exec (.set line.val digit.val char) s = .next t ∧
      (∀ l d, LineBuffers.cell t.lb l d =
        if l = line ∧ d = digit then encodeWith Config.glyph char else LineBuffers.cell s.lb l d) ∧
      (∀ b, Memory.readByte t.mem b = Memory.readByte s.mem b) ∧ t = { s with lb := t.lb }) ∧
    (s.life = .unconfigured →
      exec (.set line.val digit.val char) s = .next { s with fault := true, faultCode := 1 }) ∧
    (∀ far any : Int, (far < 0 ∨ 20 ≤ far → exec (.set far any char) s = .next s) ∧
      (far < 0 ∨ 8 ≤ far → exec (.set any far char) s = .next s))

/-- R147: FLUSH rebuilds the line bits of all twenty lines in every data word of BUF from LB, and nothing else: the
control and unused bits, the guard frames, LB and every register stay. While Running the old contents are kept for the
race (the model's field, DEDUCED from R58: log entry 6). Unconfigured, Fault(PROTOCOL). -/
def Obligations.FlushRebuildsEveryLine : Prop :=
  ∀ s : State, s.fault = false →
    (s.life ≠ .unconfigured → ∃ t, exec .flush s = .next t ∧
      (∀ (d : DigitIndex) (f : Nat), f < 32 →
        (∀ l : LineIndex, (Memory.readWord t.mem (d * 34 + f)).getLsbD (2 + l) =
          if f < 16 then (LineBuffers.cell s.lb l d).getLsbD (7 - f / 2) else decide (7 - (f / 2 - 8) = d.val)) ∧
        (∀ i, i < 2 ∨ 22 ≤ i → (Memory.readWord t.mem (d * 34 + f)).getLsbD i =
          (Memory.readWord s.mem (d * 34 + f)).getLsbD i)) ∧
      (∀ b, ¬(b / 4 < 272 ∧ b / 4 % 34 < 32) → Memory.readByte t.mem b = Memory.readByte s.mem b) ∧
      t = { s with mem := t.mem, race := if s.life = .running then some s.mem else none }) ∧
    (s.life = .unconfigured → exec .flush s = .next { s with fault := true, faultCode := 1 })

/-- R149 (a): DISPLAY_TEXT with the empty text blanks every digit position of its line and leaves every bit of BUF and
every cell of the other lines. -/
def Obligations.EmptyTextBlanksItsLineOnly : Prop :=
  ∀ (s t : State) (line : LineIndex), s.fault = false → s.life ≠ .unconfigured →
    exec (.displayText line.val []) s = .next t →
    (∀ d, LineBuffers.cell t.lb line d = 0xFF#8 ∧ decodeSeg t.mem line d = 0xFF#8) ∧
    (∀ l, l ≠ line → (∀ d, LineBuffers.cell t.lb l d = LineBuffers.cell s.lb l d) ∧
      ∀ a, (Memory.readWord t.mem a).getLsbD (2 + l) = (Memory.readWord s.mem a).getLsbD (2 + l))

/-- R149 (b): the same DISPLAY_TEXT twice leaves the same LineBuffers and the same memory as once. -/
def Obligations.SameTextTwiceIsRepeatable : Prop :=
  ∀ (s t u : State) (line : Int) (text : List Byte), Memory.wf s.mem →
    exec (.displayText line text) s = .next t → exec (.displayText line text) t = .next u →
    u.mem = t.mem ∧ u.lb = t.lb

/-- R149 (c): where BUF shows every line's cells, SET and then FLUSH change the targeted cell and what BUF shows of
it, and nothing else of the cells or of what is shown: every other cell of LB, the segment frames of every other digit
position of a cold or built line, and the digit-select and guard frames of every line already built stay bit for bit.
(FLUSH writes the digit-select frames of a cold line: the spec's C5.) -/
def Obligations.SetThenFlushShowsOneNewCell : Prop :=
  ∀ (s t u : State) (line : LineIndex) (digit : DigitIndex) (char : Byte), s.fault = false → s.life ≠ .unconfigured →
    (∀ l, LineShown s l) → exec (.set line.val digit.val char) s = .next t → exec .flush t = .next u →
    (∀ l d, decodeSeg u.mem l d =
      if l = line ∧ d = digit then encodeWith Config.glyph char else decodeSeg s.mem l d) ∧
    (∀ l d, LineBuffers.cell u.lb l d =
      if l = line ∧ d = digit then encodeWith Config.glyph char else LineBuffers.cell s.lb l d) ∧
    (∀ (l : LineIndex) (d : DigitIndex) (f : Nat), LineColdOrBuilt s.mem l → f < 16 → ¬(l = line ∧ d = digit) →
      (Memory.readWord u.mem (d * 34 + f)).getLsbD (2 + l) = (Memory.readWord s.mem (d * 34 + f)).getLsbD (2 + l)) ∧
    (∀ (l : LineIndex) (shown : LineBuffer), LineBuilt s.mem l shown → ∀ (d : DigitIndex) (f : Nat), 16 ≤ f → f < 34 →
      (Memory.readWord u.mem (d * 34 + f)).getLsbD (2 + l) = (Memory.readWord s.mem (d * 34 + f)).getLsbD (2 + l))

/-- R38, last part: a line BUF shows stays shown under every instruction but a SET on it and CONFIGURE; FLUSH shows
every line, and DISPLAY_TEXT its own. -/
def Obligations.ShownLinesStayShown : Prop :=
  ∀ (i : Instr) (s t : State) (l : LineIndex), exec i s = .next t →
    (LineShown s l → i ≠ .configure → (∀ digit char, i ≠ .set l.val digit char) → LineShown t l) ∧
    (s.fault = false → s.life ≠ .unconfigured → i = .flush ∨ (∃ text, i = .displayText l.val text) → LineShown t l)

/-! ### The replay engine -/

/-- R170: a TICK while Running, FAULT or not, loads OUT, sets OUT_VALID, moves RP on and wraps it from 271 to 0 with
INT_RAW.EOF set, and writes nothing else of the block's; the word it loads is BUF[RP], but for the race of R58, of
which RacingTickReadsOldOrNewBits speaks. The model's own are the count draws of free values (log entries 2 and 6),
and that a TICK in any other lifecycle state answers the same state, where the spec has no TICK step (DEDUCED: log
entry 7). -/
def Obligations.TickEmitsTheNextWord : Prop :=
  ∀ s : State,
    (s.life = .running → ∃ t, exec .tick s = .next t ∧
      t.rp.val = (if s.rp.val = 271 then 0 else s.rp.val + 1) ∧
      (s.race = none → t.out = Memory.readWord s.mem s.rp ∧ t.draws = s.draws) ∧
      t = { s with
        out := t.out, outValid := true, rp := t.rp, draws := t.draws,
        intRaw := if s.rp.val = 271 then { s.intRaw with eof := true } else s.intRaw }) ∧
    (s.life ≠ .running → exec .tick s = .next s)

/-- R58: a TICK inside a command that is rebuilding BUF reads a word whose every line bit is the old word's or the new
word's, and whose other bits are the old word's; whatever the free choice, nothing else about the TICK differs. The
fields race and draws, which hold the old contents and number the free choices, are the model's (log entry 6). -/
def Obligations.RacingTickReadsOldOrNewBits : Prop :=
  ∀ (s : State) (old : Memory), s.life = .running → s.race = some old → ∃ t, exec .tick s = .next t ∧
    (∀ l : LineIndex,
      t.out.getLsbD (2 + l) = (Memory.readWord old s.rp).getLsbD (2 + l) ∨
      t.out.getLsbD (2 + l) = (Memory.readWord s.mem s.rp).getLsbD (2 + l)) ∧
    (∀ i, i < 2 ∨ 22 ≤ i → t.out.getLsbD i = (Memory.readWord old s.rp).getLsbD i) ∧
    t.rp.val = (s.rp.val + 1) % 272 ∧
    t = { s with
      out := t.out, outValid := true, rp := t.rp, draws := s.draws + 1,
      intRaw := if s.rp.val = 271 then { s.intRaw with eof := true } else s.intRaw }

/-- R59: a TICK inside a DISPLAY_TEXT is exact in every bit but the rebuilt line's, and there it is the old or the new
bit; after the command has returned, its race ended (the model's field, log entry 6), it reads the new buffer. -/
def Obligations.RacingTextTouchesOnlyItsLine : Prop :=
  ∀ (s t u v : State) (line : LineIndex) (text : List Byte), s.fault = false → s.life = .running →
    exec (.displayText line.val text) s = .next t → exec .tick t = .next u →
    exec .tick { t with race := none } = .next v →
    (∀ i, i ≠ 2 + line.val → u.out.getLsbD i = (Memory.readWord s.mem s.rp).getLsbD i) ∧
    (u.out.getLsbD (2 + line) = (Memory.readWord s.mem s.rp).getLsbD (2 + line) ∨
      u.out.getLsbD (2 + line) = (Memory.readWord t.mem s.rp).getLsbD (2 + line)) ∧
    v.out = Memory.readWord t.mem s.rp

/-- R174: with no command, the values of OUT are BUF[RP], BUF[RP+1], ..., BUF[271], BUF[0], ..., so after a START they
begin at BUF[0] and have period 272; BUF, LB and LIFE stay. -/
def Obligations.ReplayEmitsTheBufferCyclically : Prop :=
  ∀ (s : State) (n : Nat), s.life = .running → s.race = none →
    (tickTimes (n + 1) s).out = Memory.readWord s.mem ((s.rp.val + n) % 272) ∧
    (tickTimes n s).rp.val = (s.rp.val + n) % 272 ∧
    (tickTimes n s).mem = s.mem ∧ (tickTimes n s).lb = s.lb ∧ (tickTimes n s).life = .running

/-- R173: with nothing left on the port and no turn fixed, a Running block replays for ever: n steps are n TICKs. The
schedule without fixed turns is the model's choice (log entry 3). -/
def Obligations.IdlePortLeavesTheReplayRunning : Prop :=
  ∀ (s : State) (n : Nat), s.life = .running → s.race = none → s.port = [] → s.turns = [] →
    Host.Core.run core n s = .next (tickTimes n s)

/-- R175: in the periodic sequence of a buffer that meets R37, CLK rises exactly from frame 2k to frame 2k+1, k in
0..15, LATCH exactly from frame 32 to frame 33, never both, the step from frame 33 lowers LATCH and leaves CLK low;
and at a rising edge of CLK a cold or built line's data bit does not change. -/
def Obligations.EdgesFallWhereTheLayoutSays : Prop :=
  ∀ (m : Memory) (a : Nat), BufferFramed m → a < 272 →
    let prev := Memory.readWord m a
    let cur := Memory.readWord m ((a + 1) % 272)
    (clkRises prev cur = decide (a % 34 < 32 ∧ a % 34 % 2 = 0)) ∧
    (latchRises prev cur = decide (a % 34 = 32)) ∧
    ¬(cur.getLsbD 0 = true ∧ cur.getLsbD 1 = true) ∧
    (a % 34 = 33 → prev.getLsbD 1 = true ∧ cur.getLsbD 1 = false ∧ prev.getLsbD 0 = false ∧ cur.getLsbD 0 = false) ∧
    (∀ l, LineColdOrBuilt m l → clkRises prev cur = true → prev.getLsbD (2 + l) = cur.getLsbD (2 + l))

/-- R177, of the receiver of R176: a digit cycle emitted whole, from its frame 0 and with no racing rebuild, leaves in
the receiver of a cold or built line the segment byte above the digit selector byte, whatever the receiver and OUT
held before and whatever the draws, and the outputs hold until the next latch frame, 34 TICKs later; a cold line gives
0xFFFF. That the display is such a receiver (the 16-bit chain, its direction, the sampling edge) is PRESUMED, as the
spec's G1 presumes it (log entry 13). -/
def Obligations.ReceiverLatchesTheDigitCycle : Prop :=
  ∀ (s : State) (r : Receiver) (draw : Nat → Bool) (l : LineIndex) (d : DigitIndex),
    s.life = .running → s.race = none → BufferFramed s.mem → LineColdOrBuilt s.mem l → s.rp.val = d * 34 →
    (∀ n, n < 34 → (watchTicks l draw (34 + n) s r).2.q = decodeSeg s.mem l d ++ decodeSel s.mem l d) ∧
    ((∃ line, LineBuilt s.mem l line) → decodeSel s.mem l d = 1#8 <<< d.val) ∧
    (LineCold s.mem l → (watchTicks l draw 34 s r).2.q = 0xFFFF#16)

/-- R179: the first word emitted after a START has CLK and LATCH low, whatever was emitted before it and wherever in a
digit cycle the START fell, so no edge rises at the cut. The premise is the block's invariant, kept by every step.
Before the first TICK ever, OUT counts as the word before (log entry 13). -/
def Obligations.StartMakesNoSpuriousEdge : Prop :=
  ∀ s t u : State, Inv s → s.fault = false → s.life ≠ .unconfigured → exec .start s = .next t → exec .tick t = .next u →
    u.rp.val = 1 ∧ u.out.getLsbD 0 = false ∧ u.out.getLsbD 1 = false ∧
    clkRises s.out u.out = false ∧ latchRises s.out u.out = false

/-- R182: a digit cycle that begins inside a command that is rebuilding BUF, n of its TICKs inside the command and the
other a after its return, leaves in the receiver of a line, bit by bit, the old or the new bit, whatever the free
choices and the draws: 16 bits are taken and latched as ever, and where old and new agree the bit is exact. The
digit-select bits of a line built before are exact; else each is 1 or DIGIT_SEL's. With
RebuildInMidCycleMixesOldAndNewBits this is every way one rebuild can overlap a digit cycle. The premises on old and
BUF are part of the invariants Inv and LinesInv, which every step keeps. The race and its end are the model's fields
(DEDUCED from R58: log entry 6); the receiver is PRESUMED, as the spec's G1 (log entry 13). -/
def Obligations.RacingDigitCycleMixesOldAndNewBits : Prop :=
  ∀ (s : State) (old : Memory) (r : Receiver) (drawIn drawAfter : Nat → Bool) (l : LineIndex) (d : DigitIndex)
    (n a : Nat), s.life = .running → s.race = some old → BufferFramed old → BufferFramed s.mem →
    LineColdOrBuilt old l → LineColdOrBuilt s.mem l → s.rp.val = d * 34 → n + a = 34 →
    let inside := watchTicks l drawIn n s r
    let after := watchTicks l drawAfter a { inside.1 with race := none } inside.2
    (∀ i, i < 16 →
      after.2.q.getLsbD i = (decodeSeg old l d ++ decodeSel old l d).getLsbD i ∨
      after.2.q.getLsbD i = (decodeSeg s.mem l d ++ decodeSel s.mem l d).getLsbD i) ∧
    (∀ i, i < 8 → after.2.q.getLsbD i = true ∨ after.2.q.getLsbD i = decide (i = d.val)) ∧
    ((∃ line, LineBuilt old l line) → (∃ line, LineBuilt s.mem l line) →
      after.2.q.extractLsb' 0 8 = 1#8 <<< d.val)

/-- R182, for a command that begins in mid cycle, and may return in it: of the 34 TICKs of digit cycle d, b come
before the command, n inside it and a after its return. The receiver of a line latches, bit by bit, what the buffer
before the command or the buffer after it gives; the digit-select bits of a line built before are exact, else each is
1 or DIGIT_SEL's; a DISPLAY_TEXT of another line changes nothing of it. START and STOP, which cut the digit cycle, are
left to StartMakesNoSpuriousEdge and StopHaltsTheReplay. The race and its end are the model's fields (DEDUCED from
R58: log entry 6); the receiver is PRESUMED, as the spec's G1 (log entry 13). -/
def Obligations.RebuildInMidCycleMixesOldAndNewBits : Prop :=
  ∀ (i : Instr) (s t : State) (r : Receiver) (drawBefore drawIn drawAfter : Nat → Bool) (l : LineIndex) (d : DigitIndex)
    (b n a : Nat), i.isCommand = true → i ≠ .start → i ≠ .stop → s.life = .running → s.race = none →
    BufferFramed s.mem → LineColdOrBuilt s.mem l → s.rp.val = d * 34 → b + n + a = 34 →
    let before := watchTicks l drawBefore b s r
    exec i before.1 = .next t →
    let inside := watchTicks l drawIn n t before.2
    let after := watchTicks l drawAfter a { inside.1 with race := none } inside.2
    (∀ j, j < 16 →
      after.2.q.getLsbD j = (decodeSeg s.mem l d ++ decodeSel s.mem l d).getLsbD j ∨
      after.2.q.getLsbD j = (decodeSeg t.mem l d ++ decodeSel t.mem l d).getLsbD j) ∧
    (∀ j, j < 8 → after.2.q.getLsbD j = true ∨ after.2.q.getLsbD j = decide (j = d.val)) ∧
    ((∃ line, LineBuilt s.mem l line) → after.2.q.extractLsb' 0 8 = 1#8 <<< d.val) ∧
    (∀ (other : LineIndex) (text : List Byte), i = .displayText other.val text → other ≠ l →
      after.2.q = decodeSeg s.mem l d ++ decodeSel s.mem l d)

/-- R172: once routed and loaded, under any valid pin map the clock pin carries OUT[0], the latch pin OUT[1], and a
connected line's pin OUT[2 + l]; a pin the map does not name is no pin of the block. -/
def Obligations.PinsCarryTheirBits : Prop :=
  ∀ (m : Config.PinMap) (s : State) (n : Nat), m.valid = true → s.route = true → s.outValid = true →
    State.pinLevelUnder m s n m.clkPin = some (s.out.getLsbD 0) ∧
    State.pinLevelUnder m s n m.latchPin = some (s.out.getLsbD 1) ∧
    (∀ (l : LineIndex) (p : Config.Pin), m.linePin.get l = some p →
      State.pinLevelUnder m s n p = some (s.out.getLsbD (2 + l))) ∧
    (∀ p, p ∉ m.pins → State.pinLevelUnder m s n p = none)

/-! ### Rules over all instructions -/

/-- R20 to R34: each piece of state is written by the instructions its rule names and by no other: LIFE and TX_EN by
CONFIGURE, START and STOP; LB by DISPLAY_TEXT and SET; BUF by CONFIGURE, DISPLAY_TEXT and FLUSH; RP by START and TICK;
OUT and OUT_VALID by TICK; DESC and INT_ENA by CONFIGURE and START; INT_RAW by those and TICK; CLKDIV, WIDTH and ROUTE
by CONFIGURE; FAULT and FAULT_CODE by no TICK, and by a command only as Fault(PROTOCOL) from FAULT = 0, outside the
command's legal lifecycle states, with nothing else changed. The fields race, draws, port and turns are the model's
own (log entries 2, 3 and 6): race goes with BUF, draws with TICK, and no instruction touches the port or the
turns. -/
def Obligations.OnlyItsWritersChangeAField : Prop :=
  ∀ (i : Instr) (s t : State), exec i s = .next t →
    (i ≠ .configure → i ≠ .start → i ≠ .stop → t.life = s.life ∧ t.txEn = s.txEn) ∧
    ((∀ line text, i ≠ .displayText line text) → (∀ line digit char, i ≠ .set line digit char) → t.lb = s.lb) ∧
    (i ≠ .configure → i ≠ .flush → (∀ line text, i ≠ .displayText line text) → t.mem = s.mem ∧ t.race = s.race) ∧
    (i ≠ .start → i ≠ .tick → t.rp = s.rp) ∧
    (i ≠ .tick → t.out = s.out ∧ t.outValid = s.outValid ∧ t.draws = s.draws) ∧
    (i ≠ .configure → i ≠ .start → t.desc = s.desc ∧ t.intEna = s.intEna) ∧
    (i ≠ .configure → i ≠ .start → i ≠ .tick → t.intRaw = s.intRaw) ∧
    (i ≠ .configure → t.clkdiv = s.clkdiv ∧ t.width = s.width ∧ t.route = s.route) ∧
    (i = .tick → t.fault = s.fault ∧ t.faultCode = s.faultCode) ∧
    (t.fault = s.fault ∧ t.faultCode = s.faultCode ∨
      s.fault = false ∧ i.isCommand = true ∧ (i = .configure ↔ s.life ≠ .unconfigured) ∧
        t = { s with fault := true, faultCode := 1 }) ∧
    t.port = s.port ∧ t.turns = s.turns

/-! ### Invariants -/

/-- The invariant of the block holds after reset. -/
def Obligations.ResetMeetsTheInvariant : Prop := Inv State.reset ∧ LinesInv State.reset

/-- R37 with R27, R30 to R34 and R53: every step keeps the invariant: control bits, unused bits and guard frames of
BUF as the layout says, memory canonical and inside BUF, the control state consistent with LIFE. -/
def Obligations.StepKeepsTheInvariant : Prop :=
  ∀ s t : State, Inv s → step s = .next t → Inv t

/-- R38: every step keeps every line of BUF cold or built, once CONFIGURE has run, and with it every line of the old
contents that a command in progress keeps for the race (the model's field, log entry 6). -/
def Obligations.StepKeepsLinesColdOrBuilt : Prop :=
  ∀ s t : State, LinesInv s → step s = .next t → LinesInv t
end

