-- ==== Sys2Proof/Laws/Memory.lean ====
section
/-! SUPPORT. What the operations over BUF's memory do: one bit, one byte, one word, a run of words. -/

namespace Sys2Proof.Machine

/-! ### One bit of a word -/

theorem getLsbD_setBit {b : Nat} (hb : b < 32) (w : Word) (v : Bool) (i : Nat) :
    (setBit w b v).getLsbD i = if i = b then v else w.getLsbD i := by
  by_cases hi : i < 32
  · unfold setBit
    by_cases hib : i = b
    · subst hib; cases v <;> simp [hi]
    · rcases Nat.lt_or_gt_of_ne hib with h | h
      · cases v <;> simp [hi, hib, h]
      · have h0 : i - b ≠ 0 := by omega
        cases v <;> simp [hi, hib, h0]
  · have hib : i ≠ b := by omega
    rw [if_neg hib, BitVec.getLsbD_of_ge _ _ (by omega), BitVec.getLsbD_of_ge _ _ (by omega)]

/-! ### One byte of memory -/

@[simp] theorem lookup_nil (a : Nat) : Memory.lookup [] a = none := rfl

theorem lookup_cons (k : Nat) (v : Byte) (m : Memory) (a : Nat) :
    Memory.lookup ((k, v) :: m) a = if a = k then some v else Memory.lookup m a := rfl

theorem lookup_writeByte (m : Memory) (a : Nat) (v : Byte) (b : Nat) :
    Memory.lookup (Memory.writeByte m a v) b = if b = a then some v else Memory.lookup m b := by
  induction m with
  | nil => simp [Memory.writeByte, lookup_cons]
  | cons c m ih =>
    obtain ⟨k, w⟩ := c
    rw [Memory.writeByte]
    split
    · simp [lookup_cons]
    · split
      · subst_vars; by_cases h : b = k <;> simp [lookup_cons, h]
      · simp only [lookup_cons, ih]
        by_cases hk : b = k <;> by_cases ha : b = a <;> simp_all

/-- A written byte reads as written, every other byte as before. -/
theorem readByte_writeByte (m : Memory) (a : Nat) (v : Byte) (b : Nat) :
    Memory.readByte (Memory.writeByte m a v) b = if b = a then v else Memory.readByte m b := by
  unfold Memory.readByte
  rw [lookup_writeByte]
  split <;> simp

theorem mem_writeByte {m : Memory} {a : Nat} {v : Byte} {c : Host.Cell} (h : c ∈ Memory.writeByte m a v) :
    c = (a, v) ∨ c ∈ m := by
  induction m with
  | nil => simpa [Memory.writeByte] using h
  | cons e m ih =>
    obtain ⟨k, w⟩ := e
    rw [Memory.writeByte] at h
    split at h
    · simpa using h
    · split at h
      · simp only [List.mem_cons] at h ⊢; tauto
      · simp only [List.mem_cons] at h ⊢
        rcases h with h | h
        · tauto
        · rcases ih h with h | h <;> tauto

/-- Writing a byte inside BUF keeps the canonical form. -/
theorem wf_writeByte {m : Memory} (hm : Memory.wf m) {a : Nat} (ha : a < Config.bufBytes) (v : Byte) :
    Memory.wf (Memory.writeByte m a v) := by
  refine ⟨?_, fun c hc => ?_⟩
  · have hs := hm.1
    clear hm
    induction m with
    | nil => simp [Memory.writeByte]
    | cons e m ih =>
      obtain ⟨k, w⟩ := e
      rw [List.pairwise_cons] at hs
      rw [Memory.writeByte]
      split
      · next hlt =>
        refine List.pairwise_cons.2 ⟨fun c hc => ?_, List.pairwise_cons.2 hs⟩
        rcases List.mem_cons.1 hc with rfl | hc
        · exact hlt
        · exact Nat.lt_trans hlt (hs.1 c hc)
      · split
        · next h => subst h; exact List.pairwise_cons.2 hs
        · refine List.pairwise_cons.2 ⟨fun c hc => ?_, ih hs.2⟩
          rcases mem_writeByte hc with rfl | hc
          · show k < a; omega
          · exact hs.1 c hc
  · rcases mem_writeByte hc with rfl | hc
    · exact ha
    · exact hm.2 c hc

theorem lookup_eq_none_of_lt {m : Memory} {a : Nat} (h : ∀ c ∈ m, a < c.1) : Memory.lookup m a = none := by
  induction m with
  | nil => rfl
  | cons e m ih =>
    obtain ⟨k, w⟩ := e
    have : a < k := h (k, w) List.mem_cons_self
    rw [lookup_cons, if_neg (by omega)]
    exact ih fun c hc => h c (List.mem_cons_of_mem _ hc)

/-- Two memories in canonical form that record the same bytes are the same data. -/
theorem memory_ext {m m' : Memory} (h : Memory.wf m) (h' : Memory.wf m')
    (he : ∀ a, Memory.lookup m a = Memory.lookup m' a) : m = m' := by
  have hs := h.1
  have hs' := h'.1
  clear h h'
  induction m generalizing m' with
  | nil =>
    cases m' with
    | nil => rfl
    | cons e m' => obtain ⟨k, w⟩ := e; simpa [lookup_cons] using he k
  | cons e m ih =>
    obtain ⟨k, w⟩ := e
    cases m' with
    | nil => simpa [lookup_cons] using he k
    | cons e' m' =>
      obtain ⟨k', w'⟩ := e'
      rw [List.pairwise_cons] at hs hs'
      have hk : k = k' := by
        rcases Nat.lt_trichotomy k k' with hlt | heq | hgt
        · have := he k
          rw [lookup_cons, if_pos rfl, lookup_cons, if_neg (by omega),
            lookup_eq_none_of_lt fun c hc => Nat.lt_trans hlt (hs'.1 c hc)] at this
          exact absurd this (by simp)
        · exact heq
        · have := he k'
          rw [lookup_cons, if_neg (by omega), lookup_cons, if_pos rfl,
            lookup_eq_none_of_lt fun c hc => Nat.lt_trans hgt (hs.1 c hc)] at this
          exact absurd this (by simp)
      subst hk
      have hw : w = w' := by simpa [lookup_cons] using he k
      subst hw
      rw [ih (m' := m') (fun a => ?_) hs.2 hs'.2]
      by_cases ha : a = k
      · subst ha
        rw [lookup_eq_none_of_lt hs.1, lookup_eq_none_of_lt hs'.1]
      · simpa [lookup_cons, ha] using he a

/-! ### One word of memory -/

/-- Byte j of a word (R52). -/
def wordByte (w : Word) (j : Nat) : Byte := w.extractLsb' (8 * j) 8

theorem append_wordBytes (w : Word) :
    (wordByte w 3 ++ wordByte w 2 ++ wordByte w 1 ++ wordByte w 0 : BitVec 32) = w := by
  refine BitVec.eq_of_getLsbD_eq fun i hi => ?_
  simp only [wordByte, BitVec.getLsbD_append, BitVec.getLsbD_extractLsb']
  by_cases h0 : i < 8
  · simp [h0]
  · by_cases h1 : i < 16
    · simp [h0, show i - 8 < 8 by omega, show 8 + (i - 8) = i by omega]
    · by_cases h2 : i < 24
      · simp [h0, show ¬ i - 8 < 8 by omega, show i - 8 - 8 < 8 by omega, show 16 + (i - 8 - 8) = i by omega]
      · simp [h0, show ¬ i - 8 < 8 by omega, show ¬ i - 8 - 8 < 8 by omega, show i - 8 - 8 - 8 < 8 by omega,
          show 24 + (i - 8 - 8 - 8) = i by omega]

theorem lookup_writeWord (m : Memory) (a : Nat) (w : Word) (b : Nat) :
    Memory.lookup (Memory.writeWord m a w) b =
      if b / 4 = a then some (wordByte w (b % 4)) else Memory.lookup m b := by
  unfold Memory.writeWord
  simp only [lookup_writeByte]
  by_cases h : b / 4 = a
  · rw [if_pos h]
    have hlt : b % 4 < 4 := Nat.mod_lt _ (by decide)
    have hb : b = 4 * a + b % 4 := by omega
    generalize b % 4 = j at hb hlt
    interval_cases j <;> subst hb <;> simp [wordByte]
  · rw [if_neg h, if_neg (by omega), if_neg (by omega), if_neg (by omega), if_neg (by omega)]

/-- A written word reads as written, every other word as before. -/
theorem readWord_writeWord (m : Memory) (a : Nat) (w : Word) (b : Nat) :
    Memory.readWord (Memory.writeWord m a w) b = if b = a then w else Memory.readWord m b := by
  unfold Memory.readWord Memory.readByte
  simp only [lookup_writeWord]
  have h3 : (4 * b + 3) / 4 = b := by omega
  have h2 : (4 * b + 2) / 4 = b := by omega
  have h1 : (4 * b + 1) / 4 = b := by omega
  have h0 : 4 * b / 4 = b := by omega
  have g3 : (4 * b + 3) % 4 = 3 := by omega
  have g2 : (4 * b + 2) % 4 = 2 := by omega
  have g1 : (4 * b + 1) % 4 = 1 := by omega
  have g0 : 4 * b % 4 = 0 := by omega
  simp only [h3, h2, h1, h0, g3, g2, g1, g0]
  split
  · simpa using append_wordBytes w
  · rfl

/-- Writing a word of BUF keeps the canonical form. -/
theorem wf_writeWord {m : Memory} (hm : Memory.wf m) {a : Nat} (ha : a < Config.bufLen) (w : Word) :
    Memory.wf (Memory.writeWord m a w) := by
  have : Config.bufBytes = 4 * Config.bufLen := rfl
  exact wf_writeByte (wf_writeByte (wf_writeByte (wf_writeByte hm (by omega) _) (by omega) _) (by omega) _)
    (by omega) _

/-! ### A run of words -/

@[simp] theorem updateWords_nil (m : Memory) (f : Nat → Word → Word) : Memory.updateWords m [] f = m := by
  simp [Memory.updateWords]

theorem updateWords_cons (m : Memory) (a : Nat) (is : List Nat) (f : Nat → Word → Word) :
    Memory.updateWords m (a :: is) f =
      Memory.updateWords (Memory.writeWord m a (f a (Memory.readWord m a))) is f := by
  simp [Memory.updateWords]

/-- All an update of distinct words does: a listed word becomes f of what it was, every other byte stays. -/
theorem lookup_updateWords {is : List Nat} (his : is.Nodup) (m : Memory) (f : Nat → Word → Word) (b : Nat) :
    Memory.lookup (Memory.updateWords m is f) b =
      if b / 4 ∈ is then some (wordByte (f (b / 4) (Memory.readWord m (b / 4))) (b % 4))
      else Memory.lookup m b := by
  induction is generalizing m with
  | nil => simp
  | cons a is ih =>
    rw [List.nodup_cons] at his
    rw [updateWords_cons, ih his.2, lookup_writeWord, readWord_writeWord]
    by_cases ha : b / 4 = a
    · simp [ha, his.1]
    · simp [ha]

theorem readWord_updateWords {is : List Nat} (his : is.Nodup) (m : Memory) (f : Nat → Word → Word) (b : Nat) :
    Memory.readWord (Memory.updateWords m is f) b =
      if b ∈ is then f b (Memory.readWord m b) else Memory.readWord m b := by
  induction is generalizing m with
  | nil => simp
  | cons a is ih =>
    rw [List.nodup_cons] at his
    rw [updateWords_cons, ih his.2, readWord_writeWord]
    by_cases ha : b = a
    · subst ha; simp [his.1]
    · simp [ha]

theorem readByte_updateWords_of_not_mem {is : List Nat} (his : is.Nodup) (m : Memory) (f : Nat → Word → Word)
    {b : Nat} (hb : b / 4 ∉ is) :
    Memory.readByte (Memory.updateWords m is f) b = Memory.readByte m b := by
  unfold Memory.readByte
  rw [lookup_updateWords his, if_neg hb]

theorem wf_updateWords {m : Memory} (hm : Memory.wf m) {is : List Nat} (his : ∀ a ∈ is, a < Config.bufLen)
    (f : Nat → Word → Word) : Memory.wf (Memory.updateWords m is f) := by
  induction is generalizing m with
  | nil => rwa [updateWords_nil]
  | cons a is ih =>
    rw [updateWords_cons]
    exact ih (wf_writeWord hm (his a List.mem_cons_self) _) fun b hb => his b (List.mem_cons_of_mem _ hb)

theorem wf_nil : Memory.wf [] := by decide

/-! ### The racing read -/

/-- A racing read takes a line bit from the old or the new word, and every other bit from the old word (R58). -/
theorem getLsbD_raceWord (pick old new : Word) (i : Nat) :
    (raceWord pick old new).getLsbD i =
      if Config.linesMask.getLsbD i && !pick.getLsbD i then new.getLsbD i else old.getLsbD i := by
  unfold raceWord
  by_cases hi : i < 32
  · simp only [BitVec.getLsbD_or, BitVec.getLsbD_and, BitVec.getLsbD_not, hi, decide_true, Bool.true_and]
    cases Config.linesMask.getLsbD i <;> cases pick.getLsbD i <;> simp
  · simp [BitVec.getLsbD_of_ge _ _ (Nat.le_of_not_lt hi)]

end Sys2Proof.Machine
end

