-- ==== Sys2Proof/Laws/Builder.lean ====
section
/-! SUPPORT. What the FrameBufferBuilder's procedures do to BUF: one reading lemma and one canonical-form lemma each,
and the bits the DECODE functions gather. -/

namespace Sys2Proof.Machine

/-! ### The layout -/

@[simp] theorem frameOf_eq (a : Nat) : frameOf a = a % 34 := rfl

@[simp] theorem pairOf_eq (a : Nat) : pairOf a = a % 34 / 2 := rfl

@[simp] theorem wordAt_eq (d f : Nat) : wordAt d f = d * 34 + f := rfl

@[simp] theorem lineBit_eq (l : LineIndex) : lineBit l = 2 + l.val := rfl

@[simp] theorem isDataWord_eq (a : Nat) : isDataWord a = decide (a % 34 < 32) := rfl

theorem lineBit_lt (l : LineIndex) : lineBit l < 22 := by have := l.isLt; simp; omega

theorem lineBit_ge (l : LineIndex) : 2 ≤ lineBit l := by simp

theorem lineBit_injective {l l' : LineIndex} (h : lineBit l = lineBit l') : l = l' := by
  simp only [lineBit_eq] at h; exact Fin.ext (by omega)

theorem cycleOf_wordAt (d : DigitIndex) {f : Nat} (hf : f < 34) : cycleOf (wordAt d f) = d := by
  have := d.isLt
  apply Fin.ext
  show (d.val * 34 + f) / 34 % 8 = d.val
  omega

theorem frameOf_wordAt (d : Nat) {f : Nat} (hf : f < 34) : frameOf (wordAt d f) = f := by
  simp only [frameOf_eq, wordAt_eq]; omega

theorem wordAt_lt (d : DigitIndex) {f : Nat} (hf : f < 34) : wordAt d f < 272 := by
  have := d.isLt; simp only [wordAt_eq]; omega

/-- A word of BUF is frame `frameOf a` of digit cycle `cycleOf a` (R80). -/
theorem wordAt_cycleOf_frameOf {a : Nat} (ha : a < 272) : wordAt (cycleOf a) (frameOf a) = a := by
  show a / 34 % 8 * 34 + a % 34 = a
  omega

theorem mem_dataWords {a : Nat} : a ∈ dataWords ↔ a < 272 ∧ a % 34 < 32 := by
  rw [dataWords, List.mem_filter, List.mem_range, isDataWord_eq, decide_eq_true_eq]
  rfl

theorem nodup_dataWords : dataWords.Nodup := List.nodup_range.filter _

/-! ### Bits of the constants -/

theorem getLsbD_digitSel (d : DigitIndex) (i : Nat) : (Config.digitSel d).getLsbD i = decide (i = d.val) := by
  have := d.isLt
  unfold Config.digitSel
  by_cases h : i = d.val
  · simp [h]
  · rcases Nat.lt_or_gt_of_ne h with h' | h'
    · simp [h, h']
    · have : i - d.val ≠ 0 := by omega
      simp [h, this]

/-- Every one of the twenty line bits, and no other bit, is in LINES_MASK (R76). -/
theorem getLsbD_linesMask (i : Nat) : Config.linesMask.getLsbD i = decide (2 ≤ i ∧ i < 22) := by
  by_cases hi : i < 32
  · have : ∀ j : Fin 32, Config.linesMask.getLsbD j.val = decide (2 ≤ j.val ∧ j.val < 22) := by decide
    exact this ⟨i, hi⟩
  · rw [BitVec.getLsbD_of_ge _ _ (by omega)]; simp; omega

theorem ctrl_def (f : Nat) :
    ctrl f = if f < 32 then BitVec.ofNat 32 (f % 2) else if f = 32 then 0 else 2 := rfl

theorem ctrl_even {f : Nat} (hf : f < 32) (h : f % 2 = 0) : ctrl f = 0 := by
  rw [ctrl_def, if_pos hf, h]; rfl

theorem ctrl_odd {f : Nat} (hf : f < 32) (h : f % 2 = 1) : ctrl f = 1 := by
  rw [ctrl_def, if_pos hf, h]; rfl

theorem ctrl_idle : ctrl 32 = 0 := rfl

theorem ctrl_latch : ctrl 33 = 2 := rfl

theorem getLsbD_ctrl_of_ge (f : Nat) {i : Nat} (hi : 2 ≤ i) : (ctrl f).getLsbD i = false := by
  have key : ∀ w : Word, w = 0 ∨ w = 1 ∨ w = 2 → w.getLsbD i = false := by
    rintro w (rfl | rfl | rfl)
    · simp
    · have : i ≠ 0 := by omega
      simp [this]
    · have h2 : ∀ j : Fin 32, 2 ≤ j.val → (2#32).getLsbD j.val = false := by decide
      by_cases h32 : i < 32
      · exact h2 ⟨i, h32⟩ hi
      · exact BitVec.getLsbD_of_ge _ _ (by omega)
  refine key _ ?_
  by_cases hf : f < 32
  · rcases Nat.mod_two_eq_zero_or_one f with h | h
    · exact .inl (ctrl_even hf h)
    · exact .inr (.inl (ctrl_odd hf h))
  · rw [ctrl_def, if_neg hf]
    split <;> simp

/-! ### Building a word -/

theorem getLsbD_buildWord_of_ne {lb : LineBuffers} {lines : List LineIndex} {a i : Nat}
    (h : ∀ l ∈ lines, lineBit l ≠ i) (w : Word) : (buildWord lb lines a w).getLsbD i = w.getLsbD i := by
  induction lines generalizing w with
  | nil => rfl
  | cons l lines ih =>
    have hl : lineBit l < 32 := Nat.lt_trans (lineBit_lt l) (by decide)
    show (buildWord lb lines a (setBit w (lineBit l) _)).getLsbD i = _
    rw [ih (fun l' hl' => h l' (List.mem_cons_of_mem _ hl')), getLsbD_setBit hl,
      if_neg (Ne.symm (h l List.mem_cons_self))]

theorem getLsbD_buildWord_of_mem {lb : LineBuffers} {lines : List LineIndex} {l : LineIndex} (h : l ∈ lines)
    (a : Nat) (w : Word) :
    (buildWord lb lines a w).getLsbD (lineBit l) = bitVal lb l (cycleOf a) (pairOf a) := by
  induction lines generalizing w with
  | nil => simp at h
  | cons l' lines ih =>
    have hl : lineBit l' < 32 := Nat.lt_trans (lineBit_lt l') (by decide)
    show (buildWord lb lines a (setBit w (lineBit l') _)).getLsbD (lineBit l) = _
    by_cases hmem : l ∈ lines
    · exact ih hmem _
    · have heq : l = l' := by simpa [hmem] using h
      subst heq
      rw [getLsbD_buildWord_of_ne (fun l' hl' e => hmem (by rwa [← lineBit_injective e])), getLsbD_setBit hl, if_pos rfl]

/-! ### Building lines -/

theorem lookup_buildLines (lb : LineBuffers) (lines : List LineIndex) (m : Memory) (b : Nat) :
    Memory.lookup (buildLines lb lines m) b =
      if b / 4 ∈ dataWords then some (wordByte (buildWord lb lines (b / 4) (Memory.readWord m (b / 4))) (b % 4))
      else Memory.lookup m b :=
  lookup_updateWords nodup_dataWords _ _ _

/-- All that building lines does to a word of BUF (R126, R127). -/
theorem readWord_buildLines (lb : LineBuffers) (lines : List LineIndex) (m : Memory) (a : Nat) :
    Memory.readWord (buildLines lb lines m) a =
      if a < 272 ∧ a % 34 < 32 then buildWord lb lines a (Memory.readWord m a) else Memory.readWord m a := by
  unfold buildLines
  rw [readWord_updateWords nodup_dataWords]
  simp only [mem_dataWords]

theorem readByte_buildLines_of_not_data {lb : LineBuffers} {lines : List LineIndex} (m : Memory) {b : Nat}
    (hb : ¬(b / 4 < 272 ∧ b / 4 % 34 < 32)) :
    Memory.readByte (buildLines lb lines m) b = Memory.readByte m b :=
  readByte_updateWords_of_not_mem nodup_dataWords _ _ (by rwa [mem_dataWords])

theorem wf_buildLines {m : Memory} (hm : Memory.wf m) (lb : LineBuffers) (lines : List LineIndex) :
    Memory.wf (buildLines lb lines m) :=
  wf_updateWords hm (fun _ ha => (mem_dataWords.1 ha).1) _

/-- A built line's bit of a data word is BITVAL. -/
theorem getLsbD_buildLines_of_mem {lb : LineBuffers} {lines : List LineIndex} {l : LineIndex} (h : l ∈ lines)
    (m : Memory) {a : Nat} (ha : a < 272) (hf : a % 34 < 32) :
    (Memory.readWord (buildLines lb lines m) a).getLsbD (lineBit l) = bitVal lb l (cycleOf a) (pairOf a) := by
  rw [readWord_buildLines, if_pos ⟨ha, hf⟩, getLsbD_buildWord_of_mem h]

/-- Every bit that is not a built line's is left alone, in every word (R127 a). -/
theorem getLsbD_buildLines_of_ne {lb : LineBuffers} {lines : List LineIndex} {i : Nat}
    (h : ∀ l ∈ lines, lineBit l ≠ i) (m : Memory) (a : Nat) :
    (Memory.readWord (buildLines lb lines m) a).getLsbD i = (Memory.readWord m a).getLsbD i := by
  rw [readWord_buildLines]
  split
  · exact getLsbD_buildWord_of_ne h _
  · rfl

/-- The guard frames are left alone (R126). -/
theorem readWord_buildLines_of_guard (lb : LineBuffers) (lines : List LineIndex) (m : Memory) {a : Nat}
    (h : ¬a % 34 < 32) : Memory.readWord (buildLines lb lines m) a = Memory.readWord m a := by
  rw [readWord_buildLines, if_neg (fun hc => h hc.2)]

theorem mem_allLines (l : LineIndex) : l ∈ allLines := List.mem_finRange l

/-! ### The cold buffer -/

theorem readWord_coldFill (m : Memory) (a : Nat) :
    Memory.readWord (coldFill m) a = if a < 272 then coldWord a else Memory.readWord m a := by
  unfold coldFill
  rw [readWord_updateWords List.nodup_range]
  simp only [List.mem_range]
  rfl

theorem readByte_coldFill_of_ge (m : Memory) {b : Nat} (hb : 272 ≤ b / 4) :
    Memory.readByte (coldFill m) b = Memory.readByte m b :=
  readByte_updateWords_of_not_mem List.nodup_range _ _ (by simp; omega)

theorem wf_coldFill {m : Memory} (hm : Memory.wf m) : Memory.wf (coldFill m) :=
  wf_updateWords hm (fun _ ha => List.mem_range.1 ha) _

theorem getLsbD_coldWord_of_line (a : Nat) (l : LineIndex) : (coldWord a).getLsbD (lineBit l) = true := by
  rw [coldWord, BitVec.getLsbD_or, getLsbD_linesMask]
  simp [lineBit_lt l, lineBit_ge l, -lineBit_eq]

theorem getLsbD_coldWord_of_not_line (a : Nat) {i : Nat} (hi : ¬(2 ≤ i ∧ i < 22)) :
    (coldWord a).getLsbD i = (ctrl (frameOf a)).getLsbD i := by
  rw [coldWord, BitVec.getLsbD_or, getLsbD_linesMask, decide_eq_false hi, Bool.false_or]

/-! ### DECODE -/

/-- The bits DECODE gathers: bit 7-k of the byte is the line's bit in the clock frame of pair k (R130). -/
theorem getLsbD_decodeBits (m : Memory) (l : LineIndex) (d : DigitIndex) (f0 : Nat) {k : Nat} (hk : k < 8) :
    (decodeBits m l d f0).getLsbD (7 - k) =
      (Memory.readWord m (wordAt d (f0 + 2 * k + 1))).getLsbD (lineBit l) := by
  let bit (k : Nat) : Bool := (Memory.readWord m (wordAt d (f0 + 2 * k + 1))).getLsbD (lineBit l)
  have key : ∀ b0 b1 b2 b3 b4 b5 b6 b7 : Bool, ∀ j : Fin 8,
      ([b0, b1, b2, b3, b4, b5, b6, b7].foldl (fun (s : Byte) b => (s <<< 1) ||| (if b then 1#8 else 0#8)) 0#8).getLsbD
        (7 - j.val) = [b0, b1, b2, b3, b4, b5, b6, b7][j] := by
    decide +kernel
  have h := key (bit 0) (bit 1) (bit 2) (bit 3) (bit 4) (bit 5) (bit 6) (bit 7) ⟨k, hk⟩
  have hl : decodeBits m l d f0 = [bit 0, bit 1, bit 2, bit 3, bit 4, bit 5, bit 6, bit 7].foldl
      (fun (s : Byte) b => (s <<< 1) ||| (if b then 1#8 else 0#8)) 0#8 := rfl
  rw [hl, h]
  interval_cases k <;> rfl

/-- Bit i of DECODE_SEG is the line's bit in the clock frame of pair 7 - i. -/
theorem getLsbD_decodeSeg (m : Memory) (l : LineIndex) (d : DigitIndex) {i : Nat} (hi : i < 8) :
    (decodeSeg m l d).getLsbD i = (Memory.readWord m (wordAt d (2 * (7 - i) + 1))).getLsbD (lineBit l) := by
  have h := getLsbD_decodeBits m l d 0 (k := 7 - i) (by omega)
  rwa [show 7 - (7 - i) = i by omega, Nat.zero_add] at h

/-- Bit i of DECODE_SEL is the line's bit in the clock frame of pair 15 - i. -/
theorem getLsbD_decodeSel (m : Memory) (l : LineIndex) (d : DigitIndex) {i : Nat} (hi : i < 8) :
    (decodeSel m l d).getLsbD i = (Memory.readWord m (wordAt d (2 * (15 - i) + 1))).getLsbD (lineBit l) := by
  have h := getLsbD_decodeBits m l d 16 (k := 7 - i) (by omega)
  rwa [show 7 - (7 - i) = i by omega, show 16 + 2 * (7 - i) + 1 = 2 * (15 - i) + 1 by omega] at h

end Sys2Proof.Machine
end

