-- ==== Sys2Proof/Laws/State.lean ====
section
/-! SUPPORT. One lemma per field per update of State, each true by rfl: what an update writes, and that it leaves the
rest. -/

namespace Sys2Proof.Machine

section armInterrupts

variable (s : State)

@[simp] theorem State.armInterrupts_life : s.armInterrupts.life = s.life := rfl
@[simp] theorem State.armInterrupts_lb : s.armInterrupts.lb = s.lb := rfl
@[simp] theorem State.armInterrupts_mem : s.armInterrupts.mem = s.mem := rfl
@[simp] theorem State.armInterrupts_rp : s.armInterrupts.rp = s.rp := rfl
@[simp] theorem State.armInterrupts_out : s.armInterrupts.out = s.out := rfl
@[simp] theorem State.armInterrupts_outValid : s.armInterrupts.outValid = s.outValid := rfl
@[simp] theorem State.armInterrupts_desc : s.armInterrupts.desc = s.desc := rfl
@[simp] theorem State.armInterrupts_clkdiv : s.armInterrupts.clkdiv = s.clkdiv := rfl
@[simp] theorem State.armInterrupts_width : s.armInterrupts.width = s.width := rfl
@[simp] theorem State.armInterrupts_route : s.armInterrupts.route = s.route := rfl
@[simp] theorem State.armInterrupts_txEn : s.armInterrupts.txEn = s.txEn := rfl
@[simp] theorem State.armInterrupts_intEna : s.armInterrupts.intEna = ⟨true, true⟩ := rfl
@[simp] theorem State.armInterrupts_intRaw : s.armInterrupts.intRaw = s.intRaw := rfl
@[simp] theorem State.armInterrupts_fault : s.armInterrupts.fault = s.fault := rfl
@[simp] theorem State.armInterrupts_faultCode : s.armInterrupts.faultCode = s.faultCode := rfl
@[simp] theorem State.armInterrupts_port : s.armInterrupts.port = s.port := rfl
@[simp] theorem State.armInterrupts_turns : s.armInterrupts.turns = s.turns := rfl
@[simp] theorem State.armInterrupts_race : s.armInterrupts.race = s.race := rfl
@[simp] theorem State.armInterrupts_draws : s.armInterrupts.draws = s.draws := rfl

end armInterrupts

section disarmInterrupts

variable (s : State)

@[simp] theorem State.disarmInterrupts_life : s.disarmInterrupts.life = s.life := rfl
@[simp] theorem State.disarmInterrupts_lb : s.disarmInterrupts.lb = s.lb := rfl
@[simp] theorem State.disarmInterrupts_mem : s.disarmInterrupts.mem = s.mem := rfl
@[simp] theorem State.disarmInterrupts_rp : s.disarmInterrupts.rp = s.rp := rfl
@[simp] theorem State.disarmInterrupts_out : s.disarmInterrupts.out = s.out := rfl
@[simp] theorem State.disarmInterrupts_outValid : s.disarmInterrupts.outValid = s.outValid := rfl
@[simp] theorem State.disarmInterrupts_desc : s.disarmInterrupts.desc = s.desc := rfl
@[simp] theorem State.disarmInterrupts_clkdiv : s.disarmInterrupts.clkdiv = s.clkdiv := rfl
@[simp] theorem State.disarmInterrupts_width : s.disarmInterrupts.width = s.width := rfl
@[simp] theorem State.disarmInterrupts_route : s.disarmInterrupts.route = s.route := rfl
@[simp] theorem State.disarmInterrupts_txEn : s.disarmInterrupts.txEn = s.txEn := rfl
@[simp] theorem State.disarmInterrupts_intEna : s.disarmInterrupts.intEna = .clear := rfl
@[simp] theorem State.disarmInterrupts_intRaw : s.disarmInterrupts.intRaw = s.intRaw := rfl
@[simp] theorem State.disarmInterrupts_fault : s.disarmInterrupts.fault = s.fault := rfl
@[simp] theorem State.disarmInterrupts_faultCode : s.disarmInterrupts.faultCode = s.faultCode := rfl
@[simp] theorem State.disarmInterrupts_port : s.disarmInterrupts.port = s.port := rfl
@[simp] theorem State.disarmInterrupts_turns : s.disarmInterrupts.turns = s.turns := rfl
@[simp] theorem State.disarmInterrupts_race : s.disarmInterrupts.race = s.race := rfl
@[simp] theorem State.disarmInterrupts_draws : s.disarmInterrupts.draws = s.draws := rfl

end disarmInterrupts

section clearPending

variable (s : State)

@[simp] theorem State.clearPending_life : s.clearPending.life = s.life := rfl
@[simp] theorem State.clearPending_lb : s.clearPending.lb = s.lb := rfl
@[simp] theorem State.clearPending_mem : s.clearPending.mem = s.mem := rfl
@[simp] theorem State.clearPending_rp : s.clearPending.rp = s.rp := rfl
@[simp] theorem State.clearPending_out : s.clearPending.out = s.out := rfl
@[simp] theorem State.clearPending_outValid : s.clearPending.outValid = s.outValid := rfl
@[simp] theorem State.clearPending_desc : s.clearPending.desc = s.desc := rfl
@[simp] theorem State.clearPending_clkdiv : s.clearPending.clkdiv = s.clkdiv := rfl
@[simp] theorem State.clearPending_width : s.clearPending.width = s.width := rfl
@[simp] theorem State.clearPending_route : s.clearPending.route = s.route := rfl
@[simp] theorem State.clearPending_txEn : s.clearPending.txEn = s.txEn := rfl
@[simp] theorem State.clearPending_intEna : s.clearPending.intEna = s.intEna := rfl
@[simp] theorem State.clearPending_intRaw : s.clearPending.intRaw = .clear := rfl
@[simp] theorem State.clearPending_fault : s.clearPending.fault = s.fault := rfl
@[simp] theorem State.clearPending_faultCode : s.clearPending.faultCode = s.faultCode := rfl
@[simp] theorem State.clearPending_port : s.clearPending.port = s.port := rfl
@[simp] theorem State.clearPending_turns : s.clearPending.turns = s.turns := rfl
@[simp] theorem State.clearPending_race : s.clearPending.race = s.race := rfl
@[simp] theorem State.clearPending_draws : s.clearPending.draws = s.draws := rfl

end clearPending

section setEof

variable (s : State)

@[simp] theorem State.setEof_life : s.setEof.life = s.life := rfl
@[simp] theorem State.setEof_lb : s.setEof.lb = s.lb := rfl
@[simp] theorem State.setEof_mem : s.setEof.mem = s.mem := rfl
@[simp] theorem State.setEof_rp : s.setEof.rp = s.rp := rfl
@[simp] theorem State.setEof_out : s.setEof.out = s.out := rfl
@[simp] theorem State.setEof_outValid : s.setEof.outValid = s.outValid := rfl
@[simp] theorem State.setEof_desc : s.setEof.desc = s.desc := rfl
@[simp] theorem State.setEof_clkdiv : s.setEof.clkdiv = s.clkdiv := rfl
@[simp] theorem State.setEof_width : s.setEof.width = s.width := rfl
@[simp] theorem State.setEof_route : s.setEof.route = s.route := rfl
@[simp] theorem State.setEof_txEn : s.setEof.txEn = s.txEn := rfl
@[simp] theorem State.setEof_intEna : s.setEof.intEna = s.intEna := rfl
@[simp] theorem State.setEof_intRaw : s.setEof.intRaw = { s.intRaw with eof := true } := rfl
@[simp] theorem State.setEof_fault : s.setEof.fault = s.fault := rfl
@[simp] theorem State.setEof_faultCode : s.setEof.faultCode = s.faultCode := rfl
@[simp] theorem State.setEof_port : s.setEof.port = s.port := rfl
@[simp] theorem State.setEof_turns : s.setEof.turns = s.turns := rfl
@[simp] theorem State.setEof_race : s.setEof.race = s.race := rfl
@[simp] theorem State.setEof_draws : s.setEof.draws = s.draws := rfl

end setEof

section raiseFault

variable (s : State) (kind : FaultKind)

@[simp] theorem State.raiseFault_life : (s.raiseFault kind).life = s.life := rfl
@[simp] theorem State.raiseFault_lb : (s.raiseFault kind).lb = s.lb := rfl
@[simp] theorem State.raiseFault_mem : (s.raiseFault kind).mem = s.mem := rfl
@[simp] theorem State.raiseFault_rp : (s.raiseFault kind).rp = s.rp := rfl
@[simp] theorem State.raiseFault_out : (s.raiseFault kind).out = s.out := rfl
@[simp] theorem State.raiseFault_outValid : (s.raiseFault kind).outValid = s.outValid := rfl
@[simp] theorem State.raiseFault_desc : (s.raiseFault kind).desc = s.desc := rfl
@[simp] theorem State.raiseFault_clkdiv : (s.raiseFault kind).clkdiv = s.clkdiv := rfl
@[simp] theorem State.raiseFault_width : (s.raiseFault kind).width = s.width := rfl
@[simp] theorem State.raiseFault_route : (s.raiseFault kind).route = s.route := rfl
@[simp] theorem State.raiseFault_txEn : (s.raiseFault kind).txEn = s.txEn := rfl
@[simp] theorem State.raiseFault_intEna : (s.raiseFault kind).intEna = s.intEna := rfl
@[simp] theorem State.raiseFault_intRaw : (s.raiseFault kind).intRaw = s.intRaw := rfl
@[simp] theorem State.raiseFault_fault : (s.raiseFault kind).fault = true := rfl
@[simp] theorem State.raiseFault_faultCode :
    (s.raiseFault kind).faultCode = if s.fault then s.faultCode else kind.code := rfl
@[simp] theorem State.raiseFault_port : (s.raiseFault kind).port = s.port := rfl
@[simp] theorem State.raiseFault_turns : (s.raiseFault kind).turns = s.turns := rfl
@[simp] theorem State.raiseFault_race : (s.raiseFault kind).race = s.race := rfl
@[simp] theorem State.raiseFault_draws : (s.raiseFault kind).draws = s.draws := rfl

end raiseFault

section rebuild

variable (s : State) (m : Memory)

@[simp] theorem State.rebuild_life : (s.rebuild m).life = s.life := rfl
@[simp] theorem State.rebuild_lb : (s.rebuild m).lb = s.lb := rfl
@[simp] theorem State.rebuild_mem : (s.rebuild m).mem = m := rfl
@[simp] theorem State.rebuild_rp : (s.rebuild m).rp = s.rp := rfl
@[simp] theorem State.rebuild_out : (s.rebuild m).out = s.out := rfl
@[simp] theorem State.rebuild_outValid : (s.rebuild m).outValid = s.outValid := rfl
@[simp] theorem State.rebuild_desc : (s.rebuild m).desc = s.desc := rfl
@[simp] theorem State.rebuild_clkdiv : (s.rebuild m).clkdiv = s.clkdiv := rfl
@[simp] theorem State.rebuild_width : (s.rebuild m).width = s.width := rfl
@[simp] theorem State.rebuild_route : (s.rebuild m).route = s.route := rfl
@[simp] theorem State.rebuild_txEn : (s.rebuild m).txEn = s.txEn := rfl
@[simp] theorem State.rebuild_intEna : (s.rebuild m).intEna = s.intEna := rfl
@[simp] theorem State.rebuild_intRaw : (s.rebuild m).intRaw = s.intRaw := rfl
@[simp] theorem State.rebuild_fault : (s.rebuild m).fault = s.fault := rfl
@[simp] theorem State.rebuild_faultCode : (s.rebuild m).faultCode = s.faultCode := rfl
@[simp] theorem State.rebuild_port : (s.rebuild m).port = s.port := rfl
@[simp] theorem State.rebuild_turns : (s.rebuild m).turns = s.turns := rfl
@[simp] theorem State.rebuild_race : (s.rebuild m).race = if s.life = .running then some s.mem else none := rfl
@[simp] theorem State.rebuild_draws : (s.rebuild m).draws = s.draws := rfl

end rebuild

section configured

variable (s : State)

@[simp] theorem State.configured_life : s.configured.life = .configured := rfl
@[simp] theorem State.configured_lb : s.configured.lb = s.lb := rfl
@[simp] theorem State.configured_mem : s.configured.mem = coldFill s.mem := rfl
@[simp] theorem State.configured_rp : s.configured.rp = s.rp := rfl
@[simp] theorem State.configured_out : s.configured.out = s.out := rfl
@[simp] theorem State.configured_outValid : s.configured.outValid = s.outValid := rfl
@[simp] theorem State.configured_desc : s.configured.desc = ⟨0, Config.bufLen, .self, false⟩ := rfl
@[simp] theorem State.configured_clkdiv : s.configured.clkdiv = Config.sampleDiv := rfl
@[simp] theorem State.configured_width : s.configured.width = Config.wordBits := rfl
@[simp] theorem State.configured_route : s.configured.route = true := rfl
@[simp] theorem State.configured_txEn : s.configured.txEn = false := rfl
@[simp] theorem State.configured_intEna : s.configured.intEna = .clear := rfl
@[simp] theorem State.configured_intRaw : s.configured.intRaw = .clear := rfl
@[simp] theorem State.configured_fault : s.configured.fault = s.fault := rfl
@[simp] theorem State.configured_faultCode : s.configured.faultCode = s.faultCode := rfl
@[simp] theorem State.configured_port : s.configured.port = s.port := rfl
@[simp] theorem State.configured_turns : s.configured.turns = s.turns := rfl
@[simp] theorem State.configured_race : s.configured.race = s.race := rfl
@[simp] theorem State.configured_draws : s.configured.draws = s.draws := rfl

end configured

section started

variable (s : State)

@[simp] theorem State.started_life : s.started.life = .running := rfl
@[simp] theorem State.started_lb : s.started.lb = s.lb := rfl
@[simp] theorem State.started_mem : s.started.mem = s.mem := rfl
@[simp] theorem State.started_rp : s.started.rp = 0 := rfl
@[simp] theorem State.started_out : s.started.out = s.out := rfl
@[simp] theorem State.started_outValid : s.started.outValid = s.outValid := rfl
@[simp] theorem State.started_desc : s.started.desc = { s.desc with attached := true } := rfl
@[simp] theorem State.started_clkdiv : s.started.clkdiv = s.clkdiv := rfl
@[simp] theorem State.started_width : s.started.width = s.width := rfl
@[simp] theorem State.started_route : s.started.route = s.route := rfl
@[simp] theorem State.started_txEn : s.started.txEn = true := rfl
@[simp] theorem State.started_intEna : s.started.intEna = ⟨true, true⟩ := rfl
@[simp] theorem State.started_intRaw : s.started.intRaw = .clear := rfl
@[simp] theorem State.started_fault : s.started.fault = s.fault := rfl
@[simp] theorem State.started_faultCode : s.started.faultCode = s.faultCode := rfl
@[simp] theorem State.started_port : s.started.port = s.port := rfl
@[simp] theorem State.started_turns : s.started.turns = s.turns := rfl
@[simp] theorem State.started_race : s.started.race = s.race := rfl
@[simp] theorem State.started_draws : s.started.draws = s.draws := rfl

end started

section halted

variable (s : State)

@[simp] theorem State.halted_life : s.halted.life = if s.life = .running then .stopped else s.life := rfl
@[simp] theorem State.halted_lb : s.halted.lb = s.lb := rfl
@[simp] theorem State.halted_mem : s.halted.mem = s.mem := rfl
@[simp] theorem State.halted_rp : s.halted.rp = s.rp := rfl
@[simp] theorem State.halted_out : s.halted.out = s.out := rfl
@[simp] theorem State.halted_outValid : s.halted.outValid = s.outValid := rfl
@[simp] theorem State.halted_desc : s.halted.desc = s.desc := rfl
@[simp] theorem State.halted_clkdiv : s.halted.clkdiv = s.clkdiv := rfl
@[simp] theorem State.halted_width : s.halted.width = s.width := rfl
@[simp] theorem State.halted_route : s.halted.route = s.route := rfl
@[simp] theorem State.halted_txEn : s.halted.txEn = false := rfl
@[simp] theorem State.halted_intEna : s.halted.intEna = s.intEna := rfl
@[simp] theorem State.halted_intRaw : s.halted.intRaw = s.intRaw := rfl
@[simp] theorem State.halted_fault : s.halted.fault = s.fault := rfl
@[simp] theorem State.halted_faultCode : s.halted.faultCode = s.faultCode := rfl
@[simp] theorem State.halted_port : s.halted.port = s.port := rfl
@[simp] theorem State.halted_turns : s.halted.turns = s.turns := rfl
@[simp] theorem State.halted_race : s.halted.race = s.race := rfl
@[simp] theorem State.halted_draws : s.halted.draws = s.draws := rfl

end halted

section textShown

variable (s : State) (l : LineIndex) (text : List Byte)

@[simp] theorem State.textShown_life : (s.textShown l text).life = s.life := rfl
@[simp] theorem State.textShown_lb : (s.textShown l text).lb = LineBuffers.setLine s.lb l (encodeLine text) := rfl
@[simp] theorem State.textShown_mem :
    (s.textShown l text).mem = buildLine (LineBuffers.setLine s.lb l (encodeLine text)) l s.mem := rfl
@[simp] theorem State.textShown_rp : (s.textShown l text).rp = s.rp := rfl
@[simp] theorem State.textShown_out : (s.textShown l text).out = s.out := rfl
@[simp] theorem State.textShown_outValid : (s.textShown l text).outValid = s.outValid := rfl
@[simp] theorem State.textShown_desc : (s.textShown l text).desc = s.desc := rfl
@[simp] theorem State.textShown_clkdiv : (s.textShown l text).clkdiv = s.clkdiv := rfl
@[simp] theorem State.textShown_width : (s.textShown l text).width = s.width := rfl
@[simp] theorem State.textShown_route : (s.textShown l text).route = s.route := rfl
@[simp] theorem State.textShown_txEn : (s.textShown l text).txEn = s.txEn := rfl
@[simp] theorem State.textShown_intEna : (s.textShown l text).intEna = s.intEna := rfl
@[simp] theorem State.textShown_intRaw : (s.textShown l text).intRaw = s.intRaw := rfl
@[simp] theorem State.textShown_fault : (s.textShown l text).fault = s.fault := rfl
@[simp] theorem State.textShown_faultCode : (s.textShown l text).faultCode = s.faultCode := rfl
@[simp] theorem State.textShown_port : (s.textShown l text).port = s.port := rfl
@[simp] theorem State.textShown_turns : (s.textShown l text).turns = s.turns := rfl
@[simp] theorem State.textShown_race :
    (s.textShown l text).race = if s.life = .running then some s.mem else none := rfl
@[simp] theorem State.textShown_draws : (s.textShown l text).draws = s.draws := rfl

end textShown

section cellSet

variable (s : State) (l : LineIndex) (d : DigitIndex) (char : Byte)

@[simp] theorem State.cellSet_life : (s.cellSet l d char).life = s.life := rfl
@[simp] theorem State.cellSet_lb : (s.cellSet l d char).lb = LineBuffers.setCell s.lb l d (encodeChar char) := rfl
@[simp] theorem State.cellSet_mem : (s.cellSet l d char).mem = s.mem := rfl
@[simp] theorem State.cellSet_rp : (s.cellSet l d char).rp = s.rp := rfl
@[simp] theorem State.cellSet_out : (s.cellSet l d char).out = s.out := rfl
@[simp] theorem State.cellSet_outValid : (s.cellSet l d char).outValid = s.outValid := rfl
@[simp] theorem State.cellSet_desc : (s.cellSet l d char).desc = s.desc := rfl
@[simp] theorem State.cellSet_clkdiv : (s.cellSet l d char).clkdiv = s.clkdiv := rfl
@[simp] theorem State.cellSet_width : (s.cellSet l d char).width = s.width := rfl
@[simp] theorem State.cellSet_route : (s.cellSet l d char).route = s.route := rfl
@[simp] theorem State.cellSet_txEn : (s.cellSet l d char).txEn = s.txEn := rfl
@[simp] theorem State.cellSet_intEna : (s.cellSet l d char).intEna = s.intEna := rfl
@[simp] theorem State.cellSet_intRaw : (s.cellSet l d char).intRaw = s.intRaw := rfl
@[simp] theorem State.cellSet_fault : (s.cellSet l d char).fault = s.fault := rfl
@[simp] theorem State.cellSet_faultCode : (s.cellSet l d char).faultCode = s.faultCode := rfl
@[simp] theorem State.cellSet_port : (s.cellSet l d char).port = s.port := rfl
@[simp] theorem State.cellSet_turns : (s.cellSet l d char).turns = s.turns := rfl
@[simp] theorem State.cellSet_race : (s.cellSet l d char).race = s.race := rfl
@[simp] theorem State.cellSet_draws : (s.cellSet l d char).draws = s.draws := rfl

end cellSet

section flushed

variable (s : State)

@[simp] theorem State.flushed_life : s.flushed.life = s.life := rfl
@[simp] theorem State.flushed_lb : s.flushed.lb = s.lb := rfl
@[simp] theorem State.flushed_mem : s.flushed.mem = buildAll s.lb s.mem := rfl
@[simp] theorem State.flushed_rp : s.flushed.rp = s.rp := rfl
@[simp] theorem State.flushed_out : s.flushed.out = s.out := rfl
@[simp] theorem State.flushed_outValid : s.flushed.outValid = s.outValid := rfl
@[simp] theorem State.flushed_desc : s.flushed.desc = s.desc := rfl
@[simp] theorem State.flushed_clkdiv : s.flushed.clkdiv = s.clkdiv := rfl
@[simp] theorem State.flushed_width : s.flushed.width = s.width := rfl
@[simp] theorem State.flushed_route : s.flushed.route = s.route := rfl
@[simp] theorem State.flushed_txEn : s.flushed.txEn = s.txEn := rfl
@[simp] theorem State.flushed_intEna : s.flushed.intEna = s.intEna := rfl
@[simp] theorem State.flushed_intRaw : s.flushed.intRaw = s.intRaw := rfl
@[simp] theorem State.flushed_fault : s.flushed.fault = s.fault := rfl
@[simp] theorem State.flushed_faultCode : s.flushed.faultCode = s.faultCode := rfl
@[simp] theorem State.flushed_port : s.flushed.port = s.port := rfl
@[simp] theorem State.flushed_turns : s.flushed.turns = s.turns := rfl
@[simp] theorem State.flushed_race : s.flushed.race = if s.life = .running then some s.mem else none := rfl
@[simp] theorem State.flushed_draws : s.flushed.draws = s.draws := rfl

end flushed

section ticked

variable (s : State)

@[simp] theorem State.ticked_life : s.ticked.life = s.life := rfl
@[simp] theorem State.ticked_lb : s.ticked.lb = s.lb := rfl
@[simp] theorem State.ticked_mem : s.ticked.mem = s.mem := rfl
@[simp] theorem State.ticked_rp : s.ticked.rp = nextWord s.rp := rfl
@[simp] theorem State.ticked_out : s.ticked.out = s.sampledWord := rfl
@[simp] theorem State.ticked_outValid : s.ticked.outValid = true := rfl
@[simp] theorem State.ticked_desc : s.ticked.desc = s.desc := rfl
@[simp] theorem State.ticked_clkdiv : s.ticked.clkdiv = s.clkdiv := rfl
@[simp] theorem State.ticked_width : s.ticked.width = s.width := rfl
@[simp] theorem State.ticked_route : s.ticked.route = s.route := rfl
@[simp] theorem State.ticked_txEn : s.ticked.txEn = s.txEn := rfl
@[simp] theorem State.ticked_intEna : s.ticked.intEna = s.intEna := rfl
@[simp] theorem State.ticked_intRaw :
    s.ticked.intRaw = if s.rp.val = 271 then { s.intRaw with eof := true } else s.intRaw := rfl
@[simp] theorem State.ticked_fault : s.ticked.fault = s.fault := rfl
@[simp] theorem State.ticked_faultCode : s.ticked.faultCode = s.faultCode := rfl
@[simp] theorem State.ticked_port : s.ticked.port = s.port := rfl
@[simp] theorem State.ticked_turns : s.ticked.turns = s.turns := rfl
@[simp] theorem State.ticked_race : s.ticked.race = s.race := rfl
@[simp] theorem State.ticked_draws : s.ticked.draws = if s.race.isSome then s.draws + 1 else s.draws := rfl

end ticked

end Sys2Proof.Machine
end

