-- ==== Sys2Proof/Laws/Commands.lean ====
section
/-! SUPPORT. What a command, and then any instruction, can do: said once, so that no later proof unfolds the checks. -/

namespace Sys2Proof.Machine

/-! ### The range checks and the cells -/

theorem lineInRange_iff {line : Int} : lineInRange line = true ↔ 0 ≤ line ∧ line < 20 := by
  simp [lineInRange]

theorem digitInRange_iff {digit : Int} : digitInRange digit = true ↔ 0 ≤ digit ∧ digit < 8 := by
  simp [digitInRange]

theorem toLine_val {line : Int} (h0 : 0 ≤ line) (h : line < 20) : ((toLine line).val : Int) = line := by
  show ((line.toNat % 20 : Nat) : Int) = line
  omega

theorem toDigit_val {digit : Int} (h0 : 0 ≤ digit) (h : digit < 8) : ((toDigit digit).val : Int) = digit := by
  show ((digit.toNat % 8 : Nat) : Int) = digit
  omega

theorem get_setLine (lb : LineBuffers) (l : LineIndex) (m : LineBuffer) (l' : LineIndex) :
    (LineBuffers.setLine lb l m).get l' = if l' = l then m else lb.get l' := by
  unfold LineBuffers.setLine
  show (lb.set l m)[l'.val] = if l' = l then m else lb[l'.val]
  rw [Vector.getElem_set]
  simp [Fin.ext_iff, eq_comm]

theorem cell_setLine (lb : LineBuffers) (l : LineIndex) (m : LineBuffer) (l' : LineIndex) (d : DigitIndex) :
    LineBuffers.cell (LineBuffers.setLine lb l m) l' d = if l' = l then m.get d else LineBuffers.cell lb l' d := by
  unfold LineBuffers.cell
  rw [get_setLine]
  split <;> rfl

theorem cell_setCell (lb : LineBuffers) (l : LineIndex) (d : DigitIndex) (v : Byte) (l' : LineIndex)
    (d' : DigitIndex) :
    LineBuffers.cell (LineBuffers.setCell lb l d v) l' d' =
      if l' = l ∧ d' = d then v else LineBuffers.cell lb l' d' := by
  have h : LineBuffers.setCell lb l d v = LineBuffers.setLine lb l ((lb.get l).set d v) := rfl
  rw [h, cell_setLine]
  by_cases hl : l' = l
  · subst hl
    simp only [if_true, true_and]
    show ((lb.get l').set d v)[d'.val] = if d' = d then v else (lb.get l')[d'.val]
    rw [Vector.getElem_set]
    simp [Fin.ext_iff, eq_comm]
  · simp [hl]

/-! ### The checks -/

section check

variable {s : State} {line digit : Option Int} {legal : Life → Bool}

theorem check_of_fault (h : s.fault = true) : s.check line digit legal = .stickyFault := by
  simp [State.check, h]

theorem check_of_pass (hf : s.fault = false) (hl : ∀ l, line = some l → lineInRange l = true)
    (hd : ∀ d, digit = some d → digitInRange d = true) :
    s.check line digit legal = if legal s.life then .run else .protocol := by
  have h1 : line.any (fun l => !lineInRange l) = false := by
    cases line with
    | none => rfl
    | some l => simp [hl l rfl]
  have h2 : digit.any (fun d => !digitInRange d) = false := by
    cases digit with
    | none => rfl
    | some d => simp [hd d rfl]
  simp only [State.check, hf, h1, h2]
  cases legal s.life <;> rfl

/-- What a passed check says. -/
theorem of_check_run (h : s.check line digit legal = .run) :
    s.fault = false ∧ (∀ l, line = some l → lineInRange l = true) ∧
      (∀ d, digit = some d → digitInRange d = true) ∧ legal s.life = true := by
  simp only [State.check] at h
  split at h
  · cases h
  · split at h
    · cases h
    · split at h
      · cases h
      · split at h
        · cases h
        · next hf hl hd hlegal =>
          refine ⟨by simpa using hf, ?_, ?_, by simpa using hlegal⟩
          · rintro l rfl; simpa using hl
          · rintro d rfl; simpa using hd

theorem fault_of_check_protocol (h : s.check line digit legal = .protocol) :
    s.fault = false ∧ legal s.life = false := by
  simp only [State.check] at h
  split at h
  · cases h
  · split at h
    · cases h
    · split at h
      · cases h
      · split at h
        · next hf _ _ hlegal => exact ⟨by simpa using hf, by simpa using hlegal⟩
        · cases h

/-- A command always answers a next state: the state as it was, the state with the PROTOCOL fault raised, or its
effect. -/
theorem command_cases (s : State) (line digit : Option Int) (legal : Life → Bool) (effect : State) :
    s.command line digit legal effect = .next s ∨
      (s.check line digit legal = .protocol ∧ s.command line digit legal effect = .next (s.raiseFault .protocol)) ∨
      (s.check line digit legal = .run ∧ s.command line digit legal effect = .next effect) := by
  simp only [State.command]
  cases s.check line digit legal <;> simp

theorem command_of_fault {effect : State} (h : s.fault = true) :
    s.command line digit legal effect = .next s := by
  simp [State.command, check_of_fault h]

theorem command_of_line {effect : State} {l : Int} (h : lineInRange l = false) :
    s.command (some l) digit legal effect = .next s := by
  by_cases hf : s.fault = true
  · exact command_of_fault hf
  · simp [State.command, State.check, hf, h]

theorem command_of_digit {effect : State} {d : Int} (h : digitInRange d = false) :
    s.command line (some d) legal effect = .next s := by
  by_cases hf : s.fault = true
  · exact command_of_fault hf
  · by_cases hl : line.any (fun l => !lineInRange l) = true
    · simp [State.command, State.check, hf, hl]
    · simp [State.command, State.check, hf, hl, h]

theorem command_of_pass {effect : State} (hf : s.fault = false) (hl : ∀ l, line = some l → lineInRange l = true)
    (hd : ∀ d, digit = some d → digitInRange d = true) :
    s.command line digit legal effect =
      .next (if legal s.life then effect else s.raiseFault .protocol) := by
  rw [State.command, check_of_pass hf hl hd]
  cases legal s.life <;> rfl

end check

@[simp] theorem legalForConfigure_eq (life : Life) : legalForConfigure life = decide (life = .unconfigured) := by
  cases life <;> rfl

@[simp] theorem legalOnceConfigured_eq (life : Life) : legalOnceConfigured life = decide (life ≠ .unconfigured) := by
  cases life <;> rfl

/-! ### One inversion for all instructions -/

/-- The effect of an instruction where its own pseudocode runs. -/
inductive Effect : Instr → State → State → Prop where
  | configure {s} (h : s.life = .unconfigured) : Effect .configure s s.configured
  | start {s} (h : s.life ≠ .unconfigured) : Effect .start s s.started
  | stop {s} (h : s.life ≠ .unconfigured) : Effect .stop s s.halted
  | displayText {s line text} (h0 : 0 ≤ line) (h1 : line < 20) (h : s.life ≠ .unconfigured) :
      Effect (.displayText line text) s (s.textShown (toLine line) text)
  | set {s line digit char} (h0 : 0 ≤ line) (h1 : line < 20) (h2 : 0 ≤ digit) (h3 : digit < 8)
      (h : s.life ≠ .unconfigured) :
      Effect (.set line digit char) s (s.cellSet (toLine line) (toDigit digit) char)
  | flush {s} (h : s.life ≠ .unconfigured) : Effect .flush s s.flushed
  | tick {s} (h : s.life = .running) : Effect .tick s s.ticked

/-- All an instruction can do: nothing, raise the PROTOCOL fault, or have its effect (R141, R170, R194). -/
theorem exec_cases {i : Instr} {s t : State} (h : exec i s = .next t) :
    t = s ∨ (s.fault = false ∧ i.isCommand = true ∧ t = s.raiseFault .protocol) ∨
      ((i.isCommand = true → s.fault = false) ∧ Effect i s t) := by
  have key : ∀ {line digit legal effect}, i.isCommand = true → exec i s = s.command line digit legal effect →
      (s.check line digit legal = .run → Effect i s effect) →
      t = s ∨ (s.fault = false ∧ i.isCommand = true ∧ t = s.raiseFault .protocol) ∨
        ((i.isCommand = true → s.fault = false) ∧ Effect i s t) := by
    intro line digit legal effect hc he hrun
    rw [he] at h
    rcases command_cases s line digit legal effect with h' | ⟨hp, h'⟩ | ⟨hr, h'⟩ <;> rw [h'] at h <;> cases h
    · exact .inl rfl
    · exact .inr (.inl ⟨(fault_of_check_protocol hp).1, hc, rfl⟩)
    · exact .inr (.inr ⟨fun _ => (of_check_run hr).1, hrun hr⟩)
  cases i with
  | configure => exact key rfl rfl fun hr => .configure (by simpa using (of_check_run hr).2.2.2)
  | start => exact key rfl rfl fun hr => .start (by simpa using (of_check_run hr).2.2.2)
  | stop => exact key rfl rfl fun hr => .stop (by simpa using (of_check_run hr).2.2.2)
  | flush => exact key rfl rfl fun hr => .flush (by simpa using (of_check_run hr).2.2.2)
  | displayText line text =>
    refine key rfl rfl fun hr => ?_
    obtain ⟨-, hl, -, hlegal⟩ := of_check_run hr
    obtain ⟨h0, h1⟩ := lineInRange_iff.1 (hl line rfl)
    exact .displayText h0 h1 (by simpa using hlegal)
  | set line digit char =>
    refine key rfl rfl fun hr => ?_
    obtain ⟨-, hl, hd, hlegal⟩ := of_check_run hr
    obtain ⟨h0, h1⟩ := lineInRange_iff.1 (hl line rfl)
    obtain ⟨h2, h3⟩ := digitInRange_iff.1 (hd digit rfl)
    exact .set h0 h1 h2 h3 (by simpa using hlegal)
  | tick =>
    have ht : exec .tick s = if s.life = .running then .next s.ticked else .next s := rfl
    rw [ht] at h
    split at h <;> cases h
    · next hr => exact .inr (.inr ⟨fun hc => absurd hc (by decide), .tick hr⟩)
    · exact .inl rfl

/-- Where the checks pass, an instruction has its effect. -/
theorem exec_of_effect {i : Instr} {s t : State} (hf : i.isCommand = true → s.fault = false) (h : Effect i s t) :
    exec i s = .next t := by
  cases h with
  | configure h =>
    refine (command_of_pass (hf rfl) (by simp) (by simp)).trans ?_
    simp [h]
  | start h =>
    refine (command_of_pass (hf rfl) (by simp) (by simp)).trans ?_
    simp [h]
  | stop h =>
    refine (command_of_pass (hf rfl) (by simp) (by simp)).trans ?_
    simp [h]
  | flush h =>
    refine (command_of_pass (hf rfl) (by simp) (by simp)).trans ?_
    simp [h]
  | displayText h0 h1 h =>
    refine (command_of_pass (hf rfl) (fun l hl => ?_) (by simp)).trans ?_
    · cases hl; exact lineInRange_iff.2 ⟨h0, h1⟩
    · simp [h]
  | set h0 h1 h2 h3 h =>
    refine (command_of_pass (hf rfl) (fun l hl => ?_) (fun d hd => ?_)).trans ?_
    · cases hl; exact lineInRange_iff.2 ⟨h0, h1⟩
    · cases hd; exact digitInRange_iff.2 ⟨h2, h3⟩
    · simp [h]
  | tick h => exact if_pos h

end Sys2Proof.Machine
end

