-- ==== Sys2Proof/Laws/Decode.lean ====
section
/-! SUPPORT. What the decoder answers for a header of each operation code, and the fields of an encoded header. -/

namespace Sys2Proof

section fields

variable (op line digit arg : Byte)

theorem getLsbD_headerWord (i : Nat) : (headerWord op line digit arg).getLsbD i =
    if i < 8 then arg.getLsbD i else if i < 16 then digit.getLsbD (i - 8)
    else if i < 24 then line.getLsbD (i - 16) else op.getLsbD (i - 24) := by
  have h : (headerWord op line digit arg).getLsbD i =
      BitVec.getLsbD (w := 8 + 8 + 8 + 8) (op ++ line ++ digit ++ arg) i := rfl
  rw [h, BitVec.getLsbD_append, BitVec.getLsbD_append, BitVec.getLsbD_append]
  by_cases h0 : i < 8
  · simp [h0]
  · by_cases h1 : i < 16
    · simp [h0, h1, show i - 8 < 8 by omega]
    · by_cases h2 : i < 24
      · simp [h0, h1, h2, show ¬i - 8 < 8 by omega, show i - 8 - 8 = i - 16 by omega,
          show i - 16 < 8 by omega]
      · simp [h0, h1, h2, show ¬i - 8 < 8 by omega, show ¬i - 8 - 8 < 8 by omega,
          show i - 8 - 8 - 8 = i - 24 by omega]

@[simp] theorem opField_headerWord : opField (headerWord op line digit arg) = op := by
  refine BitVec.eq_of_getLsbD_eq fun i hi => ?_
  rw [opField, BitVec.getLsbD_extractLsb', getLsbD_headerWord]
  simp [hi, show ¬24 + i < 8 by omega, show ¬24 + i < 16 by omega]

@[simp] theorem lineField_headerWord : lineField (headerWord op line digit arg) = line := by
  refine BitVec.eq_of_getLsbD_eq fun i hi => ?_
  rw [lineField, BitVec.getLsbD_extractLsb', getLsbD_headerWord]
  simp [hi, show ¬16 + i < 8 by omega, show 16 + i < 24 by omega]

@[simp] theorem digitField_headerWord : digitField (headerWord op line digit arg) = digit := by
  refine BitVec.eq_of_getLsbD_eq fun i hi => ?_
  rw [digitField, BitVec.getLsbD_extractLsb', getLsbD_headerWord]
  simp [hi, show 8 + i < 16 by omega]

@[simp] theorem argField_headerWord : argField (headerWord op line digit arg) = arg := by
  refine BitVec.eq_of_getLsbD_eq fun i hi => ?_
  rw [argField, BitVec.getLsbD_extractLsb', getLsbD_headerWord]
  simp [hi]

end fields

@[simp] theorem payloadChar_payloadWord (c : Byte) : payloadChar (payloadWord c) = c := by
  refine BitVec.eq_of_getLsbD_eq fun i hi => ?_
  simp [payloadChar, payloadWord, hi]
  omega

theorem sext8_indexField {i : Int} (h0 : -128 ≤ i) (h1 : i ≤ 127) : sext8 (indexField i) = i := by
  unfold sext8 indexField
  rw [BitVec.toInt_ofInt]
  exact Int.bmod_eq_of_le (by simpa using h0) (by omega)

theorem fitsIndexField_iff {i : Int} : fitsIndexField i = true ↔ -128 ≤ i ∧ i ≤ 127 := by
  simp [fitsIndexField]

/-- DISPLAY_TEXT's decoding, where the payload has wholly arrived: it takes the LEN words and no more (R74). -/
theorem decodeText_append {h : Word} {payload : List Word} (hlen : payload.length = zext8 (argField h))
    (rest : List Word) :
    decodeText h (payload ++ rest) = .command (.displayText (sext8 (lineField h)) (payload.map payloadChar)) rest := by
  unfold decodeText
  rw [if_neg (by simp; omega), ← hlen]
  simp

section decode

variable {h : Word} (rest : List Word)

theorem decode_configure (ho : opField h = 0x01#8) : decode (h :: rest) = .command .configure rest := by
  simp [decode, ho]

theorem decode_start (ho : opField h = 0x02#8) : decode (h :: rest) = .command .start rest := by
  simp [decode, ho]

theorem decode_stop (ho : opField h = 0x03#8) : decode (h :: rest) = .command .stop rest := by
  simp [decode, ho]

theorem decode_displayText (ho : opField h = 0x04#8) : decode (h :: rest) = decodeText h rest := by
  simp [decode, ho]

theorem decode_set (ho : opField h = 0x05#8) :
    decode (h :: rest) = .command (.set (sext8 (lineField h)) (sext8 (digitField h)) (argField h)) rest := by
  simp [decode, ho]

theorem decode_flush (ho : opField h = 0x06#8) : decode (h :: rest) = .command .flush rest := by
  simp [decode, ho]

/-- A reserved operation code is rejected, and one word is taken (R75). -/
theorem decode_reserved (ho : (opField h).toNat = 0 ∨ 7 ≤ (opField h).toNat) :
    decode (h :: rest) = .illegalOp h rest := by
  have hne : ∀ c : Byte, 1 ≤ c.toNat → c.toNat ≤ 6 → opField h ≠ c := by
    rintro c h1 h6 rfl
    omega
  simp only [decode]
  rw [if_neg (hne _ (by decide) (by decide)), if_neg (hne _ (by decide) (by decide)),
    if_neg (hne _ (by decide) (by decide)), if_neg (hne _ (by decide) (by decide)),
    if_neg (hne _ (by decide) (by decide)), if_neg (hne _ (by decide) (by decide))]

end decode

/-- The decoder never answers TICK (R70). -/
theorem decode_ne_tick {ws : List Word} {i : Instr} {rest : List Word} (h : decode ws = .command i rest) :
    i.isCommand = true := by
  cases ws with
  | nil => cases h
  | cons w ws =>
    simp only [decode, decodeText] at h
    split at h
    · cases h; rfl
    split at h
    · cases h; rfl
    split at h
    · cases h; rfl
    split at h
    · split at h <;> cases h
      rfl
    split at h
    · cases h; rfl
    split at h <;> cases h
    rfl

end Sys2Proof
end

