-- ==== Sys2Proof/Laws/Glyph.lean ====
section
/-! SUPPORT. What the GlyphEncoder's scan does: its steps, and how many masks it emits. -/

namespace Sys2Proof.Machine

/-- GLYPH lights no segment outside [space, 'z'] (R10). -/
theorem glyph_of_outside {c : Byte} (h : c.toNat < 0x20 ∨ 0x7A < c.toNat) : Config.glyph c = 0x00#8 :=
  if_pos (by simpa [BitVec.lt_def] using h)

/-- GLYPH is the table inside [space, 'z']. -/
theorem glyph_of_inside {c : Byte} (h0 : 0x20 ≤ c.toNat) (h1 : c.toNat ≤ 0x7A) :
    Config.glyph c = Config.glyphTable c :=
  if_neg (by simp [BitVec.lt_def]; omega)

@[simp] theorem length_mergePoint (out : List Byte) : (mergePoint out).length = out.length := by
  induction out with
  | nil => rfl
  | cons m ms ih =>
    cases ms with
    | nil => rfl
    | cons m' ms => simpa [mergePoint] using ih

/-- The merge touches the last mask only. -/
theorem mergePoint_append (out : List Byte) (m : Byte) : mergePoint (out ++ [m]) = out ++ [lightPoint m] := by
  induction out with
  | nil => rfl
  | cons m' ms ih =>
    cases ms with
    | nil => rfl
    | cons m'' ms => simpa [mergePoint] using ih

/-- Lighting a point twice is lighting it once (R106). -/
theorem lightPoint_lightPoint (m : Byte) : lightPoint (lightPoint m) = lightPoint m := by
  unfold lightPoint
  rw [BitVec.and_assoc, BitVec.and_self]

section scan

variable (glyph : Byte → Byte) (n : Nat)

theorem scanText_nil (out : List Byte) : scanText glyph n [] out = out := rfl

/-- A full stop after a mask merges into it. -/
theorem scanText_fullStop {out : List Byte} (h : 0 < out.length) (text : List Byte) :
    scanText glyph n (Config.fullStop :: text) out = scanText glyph n text (mergePoint out) := by
  simp [scanText, h]

/-- A character that does not merge, with every slot filled, ends the scan. -/
theorem scanText_full {c : Byte} {out : List Byte} (hc : ¬(c = Config.fullStop ∧ 0 < out.length))
    (h : out.length = n) (text : List Byte) : scanText glyph n (c :: text) out = out := by
  rw [scanText, if_neg hc, if_pos h]

/-- A character that does not merge, with a slot free, takes it. -/
theorem scanText_slot {c : Byte} {out : List Byte} (hc : ¬(c = Config.fullStop ∧ 0 < out.length))
    (h : out.length ≠ n) (text : List Byte) :
    scanText glyph n (c :: text) out = scanText glyph n text (out ++ [encodeWith glyph c]) := by
  rw [scanText, if_neg hc, if_neg h]

theorem length_scanText_le (text : List Byte) {out : List Byte} (h : out.length ≤ n) :
    (scanText glyph n text out).length ≤ n := by
  induction text generalizing out with
  | nil => exact h
  | cons c text ih =>
    by_cases hc : c = Config.fullStop ∧ 0 < out.length
    · obtain ⟨rfl, h0⟩ := hc
      rw [scanText_fullStop glyph n h0]
      exact ih (by simpa using h)
    · by_cases hn : out.length = n
      · rwa [scanText_full glyph n hc hn]
      · rw [scanText_slot glyph n hc hn]
        exact ih (by simp; omega)

end scan

theorem encodeTextWith_eq (glyph : Byte → Byte) (text : List Byte) (n : Nat) :
    encodeTextWith glyph text n =
      scanText glyph n text [] ++ List.replicate (n - (scanText glyph n text []).length) Config.blank := rfl

theorem get_encodeLine (text : List Byte) (d : DigitIndex) :
    (encodeLine text).get d = (encodeTextWith Config.glyph text 8).getD d.val Config.blank := by
  show (encodeLine text)[d.val] = _
  simp [encodeLine]

end Sys2Proof.Machine
end

