-- ==== Sys2Proof/Laws/PerInstr.lean ====
section
/-! SUPPORT. Statements about every instruction as syntax, one lemma per constructor. -/

namespace Sys2Proof.Laws.EncodeLength

/-- An instruction's encoding has as many words as the opcode table gives it (R74). -/
def Statement (i : Instr) : Prop := (encode i).length = i.portLength

theorem configure : Statement .configure := rfl
theorem start : Statement .start := rfl
theorem stop : Statement .stop := rfl
theorem displayText (line : Int) (text : List Byte) : Statement (.displayText line text) := by
  simp [Statement, encode, Instr.portLength, Nat.add_comm]
theorem set (line digit : Int) (char : Byte) : Statement (.set line digit char) := rfl
theorem flush : Statement .flush := rfl
theorem tick : Statement .tick := rfl

end Sys2Proof.Laws.EncodeLength
end

