-- ==== Sys2Proof/Laws/Replay.lean ====
section
/-! SUPPORT. What TICK and a run of TICKs do. -/

namespace Sys2Proof.Machine

theorem exec_tick (s : State) : exec .tick s = if s.life = .running then .next s.ticked else .next s := rfl

theorem sampledWord_of_no_race {s : State} (h : s.race = none) : s.sampledWord = Memory.readWord s.mem s.rp := by
  simp [State.sampledWord, h]

theorem sampledWord_of_race {s : State} {old : Memory} (h : s.race = some old) :
    s.sampledWord = raceWord (Config.raceOldBits s.draws) (Memory.readWord old s.rp) (Memory.readWord s.mem s.rp) := by
  simp [State.sampledWord, h]

theorem nextWord_val (rp : WordIndex) : (nextWord rp).val = (rp.val + 1) % 272 := rfl

@[simp] theorem tickTimes_zero (s : State) : tickTimes 0 s = s := rfl

theorem tickTimes_succ (n : Nat) (s : State) : tickTimes (n + 1) s = tickTimes n s.ticked := rfl

theorem tickTimes_add (n k : Nat) (s : State) : tickTimes (n + k) s = tickTimes k (tickTimes n s) := by
  induction n generalizing s with
  | zero => simp
  | succ n ih => rw [Nat.succ_add, tickTimes_succ, tickTimes_succ, ih]

/-- A run of TICKs moves RP on and writes OUT, OUT_VALID, INT_RAW and the draws; the rest stays. -/
theorem tickTimes_frame (n : Nat) (s : State) :
    (tickTimes n s).life = s.life ∧ (tickTimes n s).mem = s.mem ∧ (tickTimes n s).lb = s.lb ∧
      (tickTimes n s).race = s.race ∧ (tickTimes n s).port = s.port ∧ (tickTimes n s).turns = s.turns ∧
      (tickTimes n s).fault = s.fault := by
  induction n generalizing s with
  | zero => simp
  | succ n ih => simpa [tickTimes_succ] using ih s.ticked

theorem tickTimes_rp (n : Nat) (s : State) : (tickTimes n s).rp.val = (s.rp.val + n) % 272 := by
  induction n generalizing s with
  | zero => exact (Nat.mod_eq_of_lt s.rp.isLt).symm
  | succ n ih =>
    rw [tickTimes_succ, ih, State.ticked_rp, nextWord_val]
    omega

theorem watchTicks_zero (l : LineIndex) (draw : Nat → Bool) (s : State) (r : Receiver) :
    watchTicks l draw 0 s r = (s, r) := rfl

theorem watchTicks_succ (l : LineIndex) (draw : Nat → Bool) (n : Nat) (s : State) (r : Receiver) :
    watchTicks l draw (n + 1) s r = watchTicks l draw n s.ticked (r.receive l (draw n) s.out s.ticked.out) := rfl

end Sys2Proof.Machine
end

