-- ==== Sys2Proof/Laws/Safety.lean ====
section
/-! SUPPORT. The buffer predicates of Safety.lean under the builder's procedures. -/

namespace Sys2Proof.Machine

theorem lineBit_ne_of_control {i : Nat} (hi : i < 2 ∨ 22 ≤ i) (l : LineIndex) : lineBit l ≠ i := by
  have := lineBit_lt l
  have := lineBit_ge l
  omega

/-- The cold buffer meets R37. -/
theorem bufferFramed_coldFill (m : Memory) : BufferFramed (coldFill m) := by
  intro a ha
  rw [readWord_coldFill, if_pos ha]
  refine ⟨getLsbD_coldWord_of_not_line a (by decide), getLsbD_coldWord_of_not_line a (by decide), fun i hi => ?_,
    fun _ l => getLsbD_coldWord_of_line a l⟩
  rw [getLsbD_coldWord_of_not_line a (by omega), getLsbD_ctrl_of_ge _ (by omega)]

/-- The cold buffer is cold on every line. -/
theorem lineCold_coldFill (m : Memory) (l : LineIndex) : LineCold (coldFill m) l := by
  intro a ha
  rw [readWord_coldFill, if_pos ha]
  exact getLsbD_coldWord_of_line a l

/-- Building lines keeps R37 (R127 d). -/
theorem bufferFramed_buildLines {m : Memory} (h : BufferFramed m) (lb : LineBuffers) (lines : List LineIndex) :
    BufferFramed (buildLines lb lines m) := by
  intro a ha
  obtain ⟨h0, h1, h2, h3⟩ := h a ha
  refine ⟨?_, ?_, fun i hi => ?_, fun hg l => ?_⟩
  · rw [getLsbD_buildLines_of_ne (fun l _ => lineBit_ne_of_control (.inl (by decide)) l), h0]
  · rw [getLsbD_buildLines_of_ne (fun l _ => lineBit_ne_of_control (.inl (by decide)) l), h1]
  · rw [getLsbD_buildLines_of_ne (fun l _ => lineBit_ne_of_control (.inr hi) l), h2 i hi]
  · rw [readWord_buildLines_of_guard lb lines m (by simpa using hg)]
    exact h3 hg l

/-- Building lines leaves every other line as it was (R127 a). -/
theorem lineColdOrBuilt_buildLines_of_not_mem {m : Memory} {l : LineIndex} {lb : LineBuffers}
    {lines : List LineIndex} (hl : l ∉ lines) (h : LineColdOrBuilt m l) :
    LineColdOrBuilt (buildLines lb lines m) l := by
  have hne : ∀ l' ∈ lines, lineBit l' ≠ lineBit l := fun l' hl' e => hl (by rwa [← lineBit_injective e])
  rcases h with h | ⟨line, h⟩
  · exact .inl fun a ha => by rw [getLsbD_buildLines_of_ne hne]; exact h a ha
  · exact .inr ⟨line, fun a ha => by rw [getLsbD_buildLines_of_ne hne]; exact h a ha⟩

theorem guard_of_lineColdOrBuilt {m : Memory} {l : LineIndex} (h : LineColdOrBuilt m l) {a : Nat} (ha : a < 272)
    (hg : ¬a % 34 < 32) : (Memory.readWord m a).getLsbD (lineBit l) = true := by
  rcases h with h | ⟨line, h⟩
  · exact h a ha
  · rw [h a ha, if_neg (by simpa using hg)]

/-- Building a line builds it (R127 c). -/
theorem lineBuilt_buildLines_of_mem {m : Memory} {l : LineIndex} {lb : LineBuffers}
    {lines : List LineIndex} (hl : l ∈ lines) (h : LineColdOrBuilt m l) :
    LineBuilt (buildLines lb lines m) l (lb.get l) := by
  intro a ha
  by_cases hd : a % 34 < 32
  · rw [getLsbD_buildLines_of_mem hl m ha hd, if_pos (by simpa using hd)]
    rfl
  · rw [readWord_buildLines_of_guard lb lines m hd, if_neg (by simpa using hd)]
    exact guard_of_lineColdOrBuilt h ha hd

theorem lineColdOrBuilt_buildLines {m : Memory} {l : LineIndex} (h : LineColdOrBuilt m l) (lb : LineBuffers)
    (lines : List LineIndex) : LineColdOrBuilt (buildLines lb lines m) l := by
  by_cases hl : l ∈ lines
  · exact .inr ⟨_, lineBuilt_buildLines_of_mem hl h⟩
  · exact lineColdOrBuilt_buildLines_of_not_mem hl h

/-- A built line shows the cells it is built from. -/
theorem decodeSeg_of_lineBuilt {m : Memory} {l : LineIndex} {line : LineBuffer} (h : LineBuilt m l line)
    (d : DigitIndex) : decodeSeg m l d = line.get d := by
  refine BitVec.eq_of_getLsbD_eq fun i hi => ?_
  have hf : 2 * (7 - i) + 1 < 34 := by omega
  have hp : pairOf (wordAt d (2 * (7 - i) + 1)) = 7 - i := by
    have := d.isLt
    simp only [pairOf_eq, wordAt_eq]
    omega
  rw [getLsbD_decodeSeg m l d hi, h _ (wordAt_lt d hf), if_pos (by simp; omega), cycleOf_wordAt d hf, hp, pairBit,
    if_pos (show 7 - i < 8 by omega), show 7 - (7 - i) = i by omega]

/-- Both frames of a pair carry the same bit on a cold or built line (R78). -/
theorem pair_eq_of_lineColdOrBuilt {m : Memory} {l : LineIndex} (h : LineColdOrBuilt m l) {a : Nat}
    (ha : a + 1 < 272) (hd : a % 34 < 32) (he : a % 34 % 2 = 0) :
    (Memory.readWord m a).getLsbD (lineBit l) = (Memory.readWord m (a + 1)).getLsbD (lineBit l) := by
  rcases h with h | ⟨line, h⟩
  · rw [h a (by omega), h (a + 1) ha]
  · have hd' : (a + 1) % 34 < 32 := by omega
    have hc : cycleOf (a + 1) = cycleOf a := by
      apply Fin.ext
      show (a + 1) / 34 % 8 = a / 34 % 8
      omega
    have hp : pairOf (a + 1) = pairOf a := by simp only [pairOf_eq]; omega
    rw [h a (by omega), h (a + 1) ha, if_pos (by simpa using hd), if_pos (by simpa using hd'), hc, hp]

end Sys2Proof.Machine
end

