-- ==== Sys2Proof/Laws/Step.lean ====
section
/-! SUPPORT. What one step can do: who moves, in which state, with which instruction. -/

namespace Sys2Proof.Machine

/-- A state with other inputs: the port, the turns and the race marker replaced, everything else kept. -/
def State.withInputs (s : State) (port : List Word) (turns : List Turn) (race : Option Memory) : State :=
  { s with port := port, turns := turns, race := race }

section withInputs

variable (s : State) (port : List Word) (turns : List Turn) (race : Option Memory)

@[simp] theorem State.withInputs_life : (s.withInputs port turns race).life = s.life := rfl
@[simp] theorem State.withInputs_lb : (s.withInputs port turns race).lb = s.lb := rfl
@[simp] theorem State.withInputs_mem : (s.withInputs port turns race).mem = s.mem := rfl
@[simp] theorem State.withInputs_rp : (s.withInputs port turns race).rp = s.rp := rfl
@[simp] theorem State.withInputs_out : (s.withInputs port turns race).out = s.out := rfl
@[simp] theorem State.withInputs_outValid : (s.withInputs port turns race).outValid = s.outValid := rfl
@[simp] theorem State.withInputs_desc : (s.withInputs port turns race).desc = s.desc := rfl
@[simp] theorem State.withInputs_clkdiv : (s.withInputs port turns race).clkdiv = s.clkdiv := rfl
@[simp] theorem State.withInputs_width : (s.withInputs port turns race).width = s.width := rfl
@[simp] theorem State.withInputs_route : (s.withInputs port turns race).route = s.route := rfl
@[simp] theorem State.withInputs_txEn : (s.withInputs port turns race).txEn = s.txEn := rfl
@[simp] theorem State.withInputs_intEna : (s.withInputs port turns race).intEna = s.intEna := rfl
@[simp] theorem State.withInputs_intRaw : (s.withInputs port turns race).intRaw = s.intRaw := rfl
@[simp] theorem State.withInputs_fault : (s.withInputs port turns race).fault = s.fault := rfl
@[simp] theorem State.withInputs_faultCode : (s.withInputs port turns race).faultCode = s.faultCode := rfl
@[simp] theorem State.withInputs_port : (s.withInputs port turns race).port = port := rfl
@[simp] theorem State.withInputs_turns : (s.withInputs port turns race).turns = turns := rfl
@[simp] theorem State.withInputs_race : (s.withInputs port turns race).race = race := rfl
@[simp] theorem State.withInputs_draws : (s.withInputs port turns race).draws = s.draws := rfl

end withInputs

/-- What an instruction is run in: the inputs moved on, the rest of the state as it was; a command has no race left
before it, a TICK may have. -/
def RunsIn (s : State) (i : Instr) (s' : State) : Prop :=
  ∃ port turns race, s' = s.withInputs port turns race ∧
    ((i.isCommand = true ∧ race = none) ∨ (i = .tick ∧ (race = s.race ∨ race = none)))

/-- What a step without an instruction leaves: the inputs moved on, and at most the ILLEGAL_OP fault raised. -/
def SettlesIn (s s' : State) : Prop :=
  ∃ port turns race, (race = s.race ∨ race = none) ∧
    (s' = s.withInputs port turns race ∨
      (s.fault = false ∧ s' = (s.withInputs port turns race).raiseFault .illegalOp))

theorem fetchCommand_cases (s : State) :
    (∃ i rest, decode s.port = .command i rest ∧ s.fetchCommand = .run i (s.withInputs rest s.turns none)) ∨
      (∃ h rest, decode s.port = .illegalOp h rest ∧
        s.fetchCommand = .settle (State.rejectHeader (s.withInputs rest s.turns none))) ∨
      (decode s.port = .incomplete ∧ s.fetchCommand = .settle s) := by
  unfold State.fetchCommand
  cases h : decode s.port with
  | command i rest => exact .inl ⟨i, rest, rfl, rfl⟩
  | illegalOp w rest => exact .inr (.inl ⟨w, rest, rfl, rfl⟩)
  | incomplete => exact .inr (.inr ⟨rfl, rfl⟩)

theorem rejectHeader_cases (s : State) :
    s.rejectHeader = s ∨ (s.fault = false ∧ s.rejectHeader = s.raiseFault .illegalOp) := by
  unfold State.rejectHeader
  cases s.fault <;> simp

theorem fetchCommand_spec (s : State) :
    (∃ i s', s.fetchCommand = .run i s' ∧ RunsIn s i s') ∨ (∃ s', s.fetchCommand = .settle s' ∧ SettlesIn s s') := by
  rcases fetchCommand_cases s with ⟨i, rest, hd, h⟩ | ⟨w, rest, -, h⟩ | ⟨-, h⟩
  · exact .inl ⟨i, _, h, rest, s.turns, none, rfl, .inl ⟨decode_ne_tick hd, rfl⟩⟩
  · refine .inr ⟨_, h, rest, s.turns, none, .inr rfl, ?_⟩
    rcases rejectHeader_cases (s.withInputs rest s.turns none) with h' | ⟨hf, h'⟩ <;> rw [h']
    · exact .inl rfl
    · exact .inr ⟨hf, rfl⟩
  · exact .inr ⟨_, h, s.port, s.turns, s.race, .inl rfl, .inl rfl⟩

/-- Every move is one of the two. -/
theorem nextMove_spec (s : State) :
    (∃ i s', s.nextMove = .run i s' ∧ RunsIn s i s') ∨ (∃ s', s.nextMove = .settle s' ∧ SettlesIn s s') := by
  unfold State.nextMove
  split
  · next turns _ =>
    rcases fetchCommand_spec { s with turns := turns } with
      ⟨i, s', h, port, turns', race, rfl, hr⟩ | ⟨s', h, port, turns', race, hr, rfl | ⟨hf, rfl⟩⟩
    · exact .inl ⟨i, _, h, port, turns', race, rfl, hr⟩
    · exact .inr ⟨_, h, port, turns', race, hr, .inl rfl⟩
    · exact .inr ⟨_, h, port, turns', race, hr, .inr ⟨hf, rfl⟩⟩
  · next turns _ => exact .inl ⟨_, _, rfl, s.port, turns, s.race, rfl, .inr ⟨rfl, .inl rfl⟩⟩
  · next turns _ => exact .inr ⟨_, rfl, s.port, turns, none, .inr rfl, .inl rfl⟩
  · unfold State.defaultMove
    split
    · exact fetchCommand_spec s
    · exact .inl ⟨_, _, rfl, s.port, s.turns, none, rfl, .inr ⟨rfl, .inr rfl⟩⟩

/-- All a step can do: run an instruction, or settle the inputs. -/
theorem step_cases {s t : State} (h : step s = .next t) :
    (∃ i s', RunsIn s i s' ∧ exec i s' = .next t) ∨ SettlesIn s t := by
  unfold step at h
  rcases nextMove_spec s with ⟨i, s', hm, hr⟩ | ⟨s', hm, hs⟩ <;> rw [hm] at h
  · exact .inl ⟨i, s', hr, h⟩
  · cases h; exact .inr hs

/-- A run goes on from a step's next state. -/
theorem run_succ {M : Host.Core} {n : Nat} {s t : M.State} (h : M.step s = .next t) :
    Host.Core.run M (n + 1) s = Host.Core.run M n t := by
  simp only [Host.Core.run]
  rw [h]

end Sys2Proof.Machine
end

