-- ==== Sys2Proof/Machine/Assembly.lean ====
section
/-! DEFINITION. The block's assembly language, the call notation of the source's API (30_encoding.md R87), its
pseudo-operations (R88), and the port words of a program. -/

namespace Sys2Proof

/-- An index in decimal. -/
def indexText (i : Int) : List Char :=
  if i < 0 then '-' :: Nat.toDigits 10 i.natAbs else Nat.toDigits 10 i.natAbs

/-- A character as the call notation writes it: the character with that code. R87 says only "written in ASCII": that a
code above 0x7F, which ASCII does not have, is written as the Unicode character of the same number is the model's
(DESIGN CHOICE, unsafe: assumption 17). -/
def charText (c : Byte) : Char := Char.ofNat c.toNat

/-- One line of assembly (R87); TICK is no command and has none. That every command has a line, whatever its characters,
and that a quote or an apostrophe inside the quotes is written as it is, are the model's (DESIGN CHOICE, unsafe:
assumption 17). -/
def Instr.assembly : Instr → Option (List Char)
  | .configure => some ['c', 'o', 'n', 'f', 'i', 'g', 'u', 'r', 'e', '(', ')']
  | .start => some ['s', 't', 'a', 'r', 't', '(', ')']
  | .stop => some ['s', 't', 'o', 'p', '(', ')']
  | .displayText line text =>
    some (['d', 'i', 's', 'p', 'l', 'a', 'y', '_', 't', 'e', 'x', 't', '('] ++ indexText line ++ [',', ' ', '"']
      ++ text.map charText ++ ['"', ')'])
  | .set line digit char =>
    some (['s', 'e', 't', '('] ++ indexText line ++ [',', ' '] ++ indexText digit ++ [',', ' ', '\'', charText char,
      '\'', ')'])
  | .flush => some ['f', 'l', 'u', 's', 'h', '(', ')']
  | .tick => none

/-- Blank a line: DISPLAY_TEXT with the empty text (R88). -/
def blankLine (line : Int) : Instr := .displayText line []

/-- Restart the pass at word 0: START issued again (R88). -/
def restart : Instr := .start

/-- Batch update: a run of SETs, then one FLUSH (R88). -/
def batchUpdate (cells : List (Int × Int × Byte)) : List Instr :=
  cells.map (fun c => .set c.1 c.2.1 c.2.2) ++ [.flush]

/-- The words a program puts on the command port (R72, R87). -/
def programWords (program : List Instr) : List Word := program.flatMap encode

end Sys2Proof
end

