-- ==== Sys2Proof/Tests/Slice0.lean ====
section
/-! SUPPORT. The model's own tests, their expected values taken from 95_test_vectors.md (block and vector named at each),
and the witnesses of the obligations' hypotheses. -/

namespace Sys2Proof.Tests

open Sys2Proof.Machine

/-! ### Well-formedness: one ill-formed term per check, and the boundary values (R71, R73) -/

theorem test_line_beyond_its_field_is_ill_formed :
    (Instr.displayText 128 []).wellFormed = false ∧ (Instr.displayText (-129) []).wellFormed = false ∧
      (Instr.displayText 127 []).wellFormed = true ∧ (Instr.displayText (-128) []).wellFormed = true := by decide

theorem test_set_index_beyond_its_field_is_ill_formed :
    (Instr.set 256 0 0x31).wellFormed = false ∧ (Instr.set 0 128 0x31).wellFormed = false ∧
      (Instr.set 0 (-129) 0x31).wellFormed = false ∧ (Instr.set (-128) 127 0xFF).wellFormed = true := by decide

theorem test_long_text_is_ill_formed :
    (Instr.displayText 0 (List.replicate 256 0x31)).wellFormed = false ∧
      (Instr.displayText 0 (List.replicate 255 0x31)).wellFormed = true := by decide +kernel

/-! ### The command port (T7) -/

/-- V5.1 to V5.1d. -/
theorem test_decode_operand_free :
    decode [0x01000000] = .command .configure [] ∧ decode [0x02000000] = .command .start [] ∧
      decode [0x03000000] = .command .stop [] ∧ decode [0x06000000] = .command .flush [] ∧
      decode [0x06ABCDEF] = .command .flush [] := by decide

/-- V5.2, V5.2b, V5.2c. -/
theorem test_decode_displayText :
    decode [0x04000003, 0x41, 0x2E, 0x42, 0x06000000] = .command (.displayText 0 [0x41, 0x2E, 0x42]) [0x06000000] ∧
      decode [0x04010000] = .command (.displayText 1 []) [] ∧
      decode [0x04017701, 0xFFFFFF2D] = .command (.displayText 1 [0x2D]) [] ∧
      decode [0x04017701] = .incomplete := by decide

/-- V5.3 to V5.3f. -/
theorem test_decode_set :
    decode [0x05130738] = .command (.set 19 7 0x38) [] ∧ decode [0x05FF0031] = .command (.set (-1) 0 0x31) [] ∧
      decode [0x0500FF31] = .command (.set 0 (-1) 0x31) [] ∧ decode [0x05140031] = .command (.set 20 0 0x31) [] ∧
      decode [0x05000831] = .command (.set 0 8 0x31) [] ∧ decode [0x057F7FFF] = .command (.set 127 127 0xFF) [] ∧
      decode [0x05808000] = .command (.set (-128) (-128) 0x00) [] := by decide

/-- V5.4 to V5.4b. -/
theorem test_decode_reserved :
    decode [0x00000000, 0x01000000] = .illegalOp 0x00000000 [0x01000000] ∧
      decode [0x07000000] = .illegalOp 0x07000000 [] ∧ decode [0xFF000000] = .illegalOp 0xFF000000 [] := by decide

/-- The words of T12 to T16's programs, from the commands. -/
theorem test_encode :
    encode (.displayText 0 [0x41, 0x2E, 0x42]) = [0x04000003, 0x41, 0x2E, 0x42] ∧
      encode (.set (-1) 0 0x31) = [0x05FF0031] ∧ encode (.set 0 (-1) 0x31) = [0x0500FF31] ∧
      programWords [.configure, .set 19 7 0x38, .flush, .start, .stop] =
        [0x01000000, 0x05130738, 0x06000000, 0x02000000, 0x03000000] := by decide

/-- The rows of spec/opcode_table.json, through the host's numbering of their bits. -/
theorem test_table_words :
    decodeTableWord 32 0x01000000 = some .configure ∧ decodeTableWord 32 0x02000000 = some .start ∧
      decodeTableWord 32 0x03000000 = some .stop ∧ decodeTableWord 32 0x06000000 = some .flush ∧
      decodeTableWord 32 0x04010002 = some (.displayText 1 [0, 0]) ∧
      decodeTableWord 64 0x0000004104130001 = some (.displayText 19 [0x41]) ∧
      decodeTableWord 32 0x05130738 = some (.set 19 7 0x38) ∧ decodeTableWord 0 0 = some .tick ∧
      decodeTableWord 32 0x07000000 = none := by decide

/-- R87's notation, P2's second line. -/
theorem test_assembly :
    (Instr.set 19 7 0x38).assembly = some "set(19, 7, '8')".toList ∧
      (Instr.displayText (-1) [0x39]).assembly = some "display_text(-1, \"9\")".toList ∧
      Instr.flush.assembly = some "flush()".toList := by decide

/-! ### The GlyphEncoder under the test table GT (T1, T3, T4) -/

/-- GT (T1): a fixture of the tests, not the hardware's table. -/
def gt (c : Byte) : Byte :=
  match c.toNat with
  | 0x30 => 0x3F | 0x31 => 0x06 | 0x32 => 0x5B | 0x33 => 0x4F | 0x34 => 0x66 | 0x35 => 0x6D | 0x36 => 0x7D
  | 0x37 => 0x07 | 0x38 => 0x7F | 0x39 => 0x6F | 0x41 => 0x77 | 0x42 => 0x7C | 0x2D => 0x40 | 0x2E => 0x80
  | _ => 0x00

/-- V3.1 to V3.9, with the characters of T1's table. -/
theorem test_encode_char :
    [0x20, 0x7A, 0x1F, 0x7B, 0x38, 0x2E, 0x2D, 0x80, 0xFF, 0x00, 0x41, 0x42].map (encodeWith gt) =
      [0xFF, 0xFF, 0xFF, 0xFF, 0x80, 0x7F, 0xBF, 0xFF, 0xFF, 0xFF, 0x88, 0x83] := by decide

/-- Outside the range the table is not asked. -/
theorem test_encode_char_out_of_range :
    [0x1F, 0x7B, 0x00, 0xFF].map (encodeWith fun _ => 0x55) = [0xFF, 0xFF, 0xFF, 0xFF] := by decide

/-- V3.10 ("A.B"), V3.11 ("12345678901"), V3.12 (""), V3.13 (".5"), V3.14 ("1..2"). -/
theorem test_encode_text_points :
    encodeTextWith gt [0x41, 0x2E, 0x42] 8 = [0x08, 0x83, 0xFF, 0xFF, 0xFF, 0xFF, 0xFF, 0xFF] ∧
      encodeTextWith gt [0x31, 0x32, 0x33, 0x34, 0x35, 0x36, 0x37, 0x38, 0x39, 0x30, 0x31] 8 =
        [0xF9, 0xA4, 0xB0, 0x99, 0x92, 0x82, 0xF8, 0x80] ∧
      encodeTextWith gt [] 8 = List.replicate 8 0xFF ∧
      encodeTextWith gt [0x2E, 0x35] 8 = [0x7F, 0x92, 0xFF, 0xFF, 0xFF, 0xFF, 0xFF, 0xFF] ∧
      encodeTextWith gt [0x31, 0x2E, 0x2E, 0x32] 8 = [0x79, 0xA4, 0xFF, 0xFF, 0xFF, 0xFF, 0xFF, 0xFF] := by decide

/-- V3.15 ("12345678."), V3.16 ("123456789."), V3.17, V3.18 (".."), V3.19 ("8.8.8.8.8.8.8.8."). -/
theorem test_encode_text_boundary :
    encodeTextWith gt [0x31, 0x32, 0x33, 0x34, 0x35, 0x36, 0x37, 0x38, 0x2E] 8 =
        [0xF9, 0xA4, 0xB0, 0x99, 0x92, 0x82, 0xF8, 0x00] ∧
      encodeTextWith gt [0x31, 0x32, 0x33, 0x34, 0x35, 0x36, 0x37, 0x38, 0x39, 0x2E] 8 =
        [0xF9, 0xA4, 0xB0, 0x99, 0x92, 0x82, 0xF8, 0x80] ∧
      encodeTextWith gt [0x7E, 0x7B, 0x31] 8 = [0xFF, 0xFF, 0xF9, 0xFF, 0xFF, 0xFF, 0xFF, 0xFF] ∧
      encodeTextWith gt [0x2E, 0x2E] 8 = [0x7F, 0xFF, 0xFF, 0xFF, 0xFF, 0xFF, 0xFF, 0xFF] ∧
      encodeTextWith gt (List.replicate 8 [0x38, 0x2E]).flatten 8 = List.replicate 8 0x00 := by decide

/-! ### The FrameBufferBuilder (T5, T6) -/

/-- V4.1. -/
theorem test_ctrl :
    (List.range 34).map ctrl =
      [0, 1, 0, 1, 0, 1, 0, 1, 0, 1, 0, 1, 0, 1, 0, 1, 0, 1, 0, 1, 0, 1, 0, 1, 0, 1, 0, 1, 0, 1, 0, 1, 0, 2] := by decide

/-- R85. -/
theorem test_digitSel :
    (List.finRange 8).map Config.digitSel = [0x01, 0x02, 0x04, 0x08, 0x10, 0x20, 0x40, 0x80] := by decide

/-- V4.2, the words R124 names. -/
theorem test_cold_words :
    [0, 1, 32, 33, 34, 271].map coldWord =
      [0x003FFFFC, 0x003FFFFD, 0x003FFFFC, 0x003FFFFE, 0x003FFFFC, 0x003FFFFE] := by decide

/-- The LineBuffers of V4.3: "A.B" under GT on line 0. -/
def lbAB : LineBuffers :=
  LineBuffers.setLine State.reset.lb 0 #v[0x08, 0x83, 0xFF, 0xFF, 0xFF, 0xFF, 0xFF, 0xFF]

/-- The LineBuffers of V5.7: '8' under GT in the last cell of the last line. -/
def lb8 : LineBuffers := LineBuffers.setCell State.reset.lb 19 7 0x80

/-- A word of a buffer built from the cold one. -/
theorem readWord_built (lb : LineBuffers) (lines : List LineIndex) {a : Nat} (ha : a < 272) (hd : a % 34 < 32) :
    Memory.readWord (buildLines lb lines (coldFill [])) a = buildWord lb lines a (coldWord a) := by
  rw [readWord_buildLines, if_pos ⟨ha, hd⟩, readWord_coldFill, if_pos ha]

/-- V4.3, words of cycles 0, 1 and 7. -/
theorem test_build_line_words :
    [0, 1, 8, 9, 16, 30, 31, 34, 36, 44, 62, 238, 254, 256].map (fun a => buildWord lbAB [0] a (coldWord a)) =
      [0x003FFFF8, 0x003FFFF9, 0x003FFFFC, 0x003FFFFD, 0x003FFFF8, 0x003FFFFC, 0x003FFFFD, 0x003FFFFC, 0x003FFFF8,
        0x003FFFF8, 0x003FFFFC, 0x003FFFFC, 0x003FFFFC, 0x003FFFF8] := by decide +kernel

/-- V4.3's guard frames, and its first word as BUILD_LINE leaves it in memory. -/
theorem test_build_line_memory :
    Memory.readWord (buildLine lbAB 0 (coldFill [])) 0 = 0x003FFFF8 ∧
      Memory.readWord (buildLine lbAB 0 (coldFill [])) 33 = 0x003FFFFE := by
  unfold buildLine
  rw [readWord_built _ _ (by decide) (by decide), readWord_buildLines_of_guard _ _ _ (by decide), readWord_coldFill]
  decide +kernel

/-- V5.7: FLUSH after SET(19, 7, '8') under GT. -/
theorem test_build_all_words :
    [0, 16, 17, 30, 62, 238, 240, 241, 254, 256].map (fun a => buildWord lb8 allLines a (coldWord a)) =
      [0x003FFFFC, 0x00000000, 0x00000001, 0x003FFFFC, 0x003FFFFC, 0x003FFFFC, 0x001FFFFC, 0x001FFFFD, 0x003FFFFC,
        0x00000000] := by decide +kernel

/-- V4.8: "12345678901" under GT on line 2. -/
theorem test_build_second_line_words :
    [0, 10, 16, 30, 238, 240, 254, 256].map (fun a => buildWord
        (LineBuffers.setLine State.reset.lb 2 #v[0xF9, 0xA4, 0xB0, 0x99, 0x92, 0x82, 0xF8, 0x80]) [2] a (coldWord a)) =
      [0x003FFFFC, 0x003FFFEC, 0x003FFFEC, 0x003FFFFC, 0x003FFFFC, 0x003FFFEC, 0x003FFFFC, 0x003FFFEC] := by
  decide +kernel

/-- R123's worked examples. -/
theorem test_bitVal :
    (List.range 16).map (bitVal lbAB 0 0) =
      [false, false, false, false, true, false, false, false,
        false, false, false, false, false, false, false, true] := by decide +kernel

/-- Memory keeps its order and its last write; byte j of word a stands at 4a + j (R52). -/
theorem test_memory :
    Memory.writeWord (Memory.writeByte [] 9 0x77) 1 0x0403027F = [(4, 0x7F), (5, 0x02), (6, 0x03), (7, 0x04), (9, 0x77)] ∧
      Memory.readWord (Memory.writeWord [] 1 0x0403027F) 1 = 0x0403027F ∧
      setBit 0x003FFFFC 2 false = 0x003FFFF8 ∧ setBit 0 21 true = 0x00200000 := by decide +kernel

/-! ### The commands (T8) -/

/-- The next state of an outcome. -/
def nextOf : Host.Outcome State Fault Refusal → Option State
  | .next s => some s
  | .fault _ => none
  | .refused _ => none

/-- LIFE, FAULT and FAULT_CODE after an outcome. -/
def statusOf (o : Host.Outcome State Fault Refusal) : Option (Life × Bool × BitVec 3) :=
  (nextOf o).map fun s => (s.life, s.fault, s.faultCode)

/-- V5.5: the control state after CONFIGURE. -/
theorem test_configure_control :
    statusOf (exec .configure State.reset) = some (.configured, false, 0) ∧
      (nextOf (exec .configure State.reset)).map (fun s => (s.route, s.width, s.txEn, s.desc, s.rp)) =
        some (true, 32, false, ⟨0, 272, .self, false⟩, 0) := by decide

/-- V5.14: a second CONFIGURE. -/
theorem test_configure_twice : statusOf (exec .configure State.reset.configured) = some (.configured, true, 1) := by
  decide

/-- V5.13: commands before CONFIGURE, and the sticky fault. -/
theorem test_commands_before_configure :
    statusOf (exec .start State.reset) = some (.unconfigured, true, 1) ∧
      statusOf (exec .stop State.reset) = some (.unconfigured, true, 1) ∧
      statusOf (exec .flush State.reset) = some (.unconfigured, true, 1) ∧
      statusOf (exec (.displayText 0 [0x31]) State.reset) = some (.unconfigured, true, 1) ∧
      statusOf (exec (.set 0 0 0x31) State.reset) = some (.unconfigured, true, 1) ∧
      statusOf (exec .configure (State.reset.raiseFault .protocol)) = some (.unconfigured, true, 1) := by decide

/-- V5.11: the range checks come before the lifecycle check. -/
theorem test_range_before_lifecycle :
    statusOf (exec (.displayText 20 [0x39]) State.reset) = some (.unconfigured, false, 0) ∧
      statusOf (exec (.set 0 8 0x31) State.reset) = some (.unconfigured, false, 0) := by decide

/-- V5.12: no index is reduced before its check. -/
theorem test_wide_index_is_no_op :
    (nextOf (exec (.set 256 0 0x7B) State.reset.configured)).map (·.lb) = some State.reset.lb ∧
      (nextOf (exec (.displayText 2147483647 [0x31]) State.reset.configured)).map (·.lb) = some State.reset.lb ∧
      (nextOf (exec (.displayText (-2147483648) [0x31]) State.reset.configured)).map (·.lb) = some State.reset.lb := by
  decide +kernel

/-- V5.16: the lifecycle walk. -/
theorem test_lifecycle_walk :
    (State.reset.configured.halted).life = .configured ∧ (State.reset.configured.started).life = .running ∧
      (State.reset.configured.started.halted).life = .stopped ∧
      (State.reset.configured.started.halted.halted).life = .stopped ∧
      (State.reset.configured.started.halted.started).life = .running := by decide

/-- R143's worked example: START while Stopped at RP = 100. -/
theorem test_start_restarts :
    (nextOf (exec .start { State.reset.configured.started.halted with rp := 100, intRaw := ⟨false, true⟩ })).map
      (fun s => (s.life, s.rp, s.txEn, s.desc.attached, s.intEna, s.intRaw)) =
      some (.running, 0, true, true, ⟨true, true⟩, ⟨false, false⟩) := by decide

/-- R144's worked example: STOP at RP = 50. -/
theorem test_stop_freezes :
    (nextOf (exec .stop { State.reset.configured.started with rp := 50, out := 0x003FFFFD, outValid := true })).map
      (fun s => (s.life, s.rp, s.txEn, s.out, s.outValid)) = some (.stopped, 50, false, 0x003FFFFD, true) := by decide

/-- SET of a character out of range stores 0xFF in its one cell (R146); V5.17's full stop stays in its cell. -/
theorem test_set_cell :
    (nextOf (exec (.set 19 7 0x7B) { State.reset.configured with lb := lb8 })).map
      (fun s => (LineBuffers.cell s.lb 19 7, LineBuffers.cell s.lb 19 6, LineBuffers.cell s.lb 18 7)) =
      some (0xFF, 0xFF, 0xFF) ∧
    LineBuffers.cell (State.cellSet State.reset 0 1 0x2E).lb 0 0 = 0xFF := by decide +kernel

/-- DISPLAY_TEXT of characters out of range blanks its line over what stood there, and leaves the others (V3.17, R145). -/
theorem test_displayText_cells :
    (nextOf (exec (.displayText 19 [0x7E, 0x7B]) { State.reset.configured with lb := LineBuffers.setCell lb8 0 0 0x12 })).map
      (fun s => (LineBuffers.cell s.lb 19 7, LineBuffers.cell s.lb 0 0)) = some (0xFF, 0x12) := by decide +kernel

/-- V5.7: FLUSH writes no cell and keeps LIFE. -/
theorem test_flush_keeps_cells :
    (nextOf (exec .flush { State.reset.configured with lb := lb8 })).map (fun s => (s.life, LineBuffers.cell s.lb 19 7)) =
      some (.configured, 0x80) := by decide +kernel

/-- V5.15: a reserved header, then another. -/
theorem test_reserved_header :
    statusOf (step (State.reset.configured.withInputs [0x07000000] [.command] none)) = some (.configured, true, 2) ∧
      (nextOf (step ((State.reset.configured.raiseFault .illegalOp).withInputs [0x00000000, 0x02000000] [.command] none))).map
        (fun s => (s.faultCode, s.port)) = some (2, [0x02000000]) := by decide

/-- P5's first steps: both words of a DISPLAY_TEXT out of range are consumed, and nothing else changes. -/
theorem test_no_op_consumes_its_words :
    (nextOf (step (State.reset.withInputs [0x04140001, 0x00000039, 0x01000000] [.command] none))).map
      (fun s => (s.port, s.fault, s.lb)) = some ([0x01000000], false, State.reset.lb) := by decide +kernel

/-- The host's way to run a row's word first after reset (assumption 12). -/
theorem test_withFetchWord :
    statusOf (step (State.reset.withFetchWord 32 0x02000000)) = some (.unconfigured, true, 1) ∧
      statusOf (step (State.reset.withFetchWord 32 0x01000000)) = some (.configured, false, 0) ∧
      statusOf (step (State.reset.withFetchWord 0 0)) = some (.unconfigured, false, 0) := by decide

/-! ### The replay engine, the pins and the receiver (T9 to T11) -/

/-- A Running block at a word index, with one word of BUF recorded. -/
def atWord (a : WordIndex) (w : Word) : State :=
  { State.reset with life := .running, txEn := true, rp := a, mem := Memory.writeWord [] a w }

/-- R170's worked example. -/
theorem test_tick :
    (nextOf (exec .tick (atWord 33 0x003FFFFE))).map (fun s => (s.out, s.outValid, s.rp, s.intRaw.eof)) =
      some (0x003FFFFE, true, 34, false) := by decide +kernel

/-- R171's worked example. -/
theorem test_tick_wraps :
    (nextOf (exec .tick (atWord 271 0x003FFFFE))).map (fun s => (s.out, s.rp, s.intRaw.eof)) =
      some (0x003FFFFE, 0, true) := by decide +kernel

/-- V6.5: the two values a racing read of word 50 can give, and a word whose old and new values agree. -/
theorem test_race_word :
    raceWord 0xFFFFFFFF 0x003FFFFC 0x003FFFF4 = 0x003FFFFC ∧ raceWord 0 0x003FFFFC 0x003FFFF4 = 0x003FFFF4 ∧
      raceWord 0x12345678 0x003FFFFE 0x003FFFFE = 0x003FFFFE ∧ raceWord 0 0x003FFFFD 0xFFFFFFFE = 0x003FFFFD := by
  decide +kernel

/-- The values of OUT of V6.1's table, TICKs 1 to 34. -/
def cycle0 : List Word :=
  [0x003FFFF8, 0x003FFFF9, 0x003FFFF8, 0x003FFFF9, 0x003FFFF8, 0x003FFFF9, 0x003FFFF8, 0x003FFFF9,
    0x003FFFFC, 0x003FFFFD, 0x003FFFF8, 0x003FFFF9, 0x003FFFF8, 0x003FFFF9, 0x003FFFF8, 0x003FFFF9,
    0x003FFFF8, 0x003FFFF9, 0x003FFFF8, 0x003FFFF9, 0x003FFFF8, 0x003FFFF9, 0x003FFFF8, 0x003FFFF9,
    0x003FFFF8, 0x003FFFF9, 0x003FFFF8, 0x003FFFF9, 0x003FFFF8, 0x003FFFF9, 0x003FFFFC, 0x003FFFFD,
    0x003FFFFC, 0x003FFFFE]

/-- V6.1: what the receiver of line 0 holds after them, whatever it held before (R177). -/
theorem test_receiver :
    ((cycle0.foldl (fun p w => (w, p.2.receive 0 false p.1 w)) ((0x003FFFFE : Word), Receiver.mk 0xABCD 0x1234)).2) =
      ⟨0x0801, 0x0801⟩ := by decide +kernel

/-- A pin map with lines 0 and 19 connected. -/
def somePins : Config.PinMap := ⟨4, 5, ((Vector.replicate 20 none).set 0 (some 6)).set 19 (some 7)⟩

/-- R172: the pins of a loaded block; a pin map with two lines on one pin is refused (U7). -/
theorem test_pins :
    [4, 5, 6, 7, 8].map (State.pinLevelUnder somePins { State.reset with route := true, outValid := true, out := 0x00200002 } 0) =
      [some false, some true, some false, some true, none] ∧ somePins.valid = true ∧
    Config.PinMap.valid ⟨4, 5, ((Vector.replicate 20 none).set 0 (some 6)).set 19 (some 6)⟩ = false := by decide +kernel

/-! ### Witnesses: for each obligation with hypotheses, concrete values that meet them, at the boundaries of each clause -/

/-- The block right after CONFIGURE. -/
def blockConfigured : State := State.reset.configured
/-- The block right after CONFIGURE and START: Running, cold, no command in progress. -/
def blockRunning : State := blockConfigured.started
/-- The Running block with DISPLAY_TEXT(19, "") in progress. -/
def blockRacing : State := blockRunning.textShown 19 []

/-- The characters just outside GLYPH's range. -/
theorem witness_ParametersMeetTheirConstraints :
    ((0x1F#8).toNat < 0x20 ∨ 0x7A < (0x1F#8).toNat) ∧ ((0x7B#8).toNat < 0x20 ∨ 0x7A < (0x7B#8).toNat) := by decide

/-- R10 at those characters; at the ends of the range GLYPH is the table, whatever it holds. -/
theorem test_glyph_range :
    [0x00, 0x1F, 0x7B, 0xFF].map Config.glyph = [0x00, 0x00, 0x00, 0x00] ∧ Config.glyph 0x20 = Config.glyphTable 0x20 ∧
      Config.glyph 0x7A = Config.glyphTable 0x7A :=
  ⟨rfl, rfl, rfl⟩

theorem witness_StepRunsTheDecodedCommand :
    decode (blockRunning.withInputs [0x04010001, 0x2D, 0x03000000] [.command, .tick] none).port =
        .command (.displayText 1 [0x2D]) [0x03000000] ∧
      (blockRunning.withInputs [0x04010001, 0x2D, 0x03000000] [.command, .tick] none).turns = .command :: [.tick] ∧
      (blockRunning.withInputs [0x03000000] [] none).turns = [] ∧
      decode (blockRunning.withInputs [0x03000000] [] none).port = .command .stop [] := by decide

theorem witness_StepTakesTheOtherTurns :
    (blockRunning.withInputs [] [.tick] none).turns = .tick :: [] ∧
      (blockRunning.withInputs [0x04000001] [] none).turns = [] ∧
      decode (blockRunning.withInputs [0x04000001] [] none).port = .incomplete ∧
      (blockRacing.withInputs [] [.returned] none).turns = .returned :: [] ∧
      (blockRunning.withInputs [] [.command] none).turns = .command :: [] ∧
      decode (blockRunning.withInputs [] [.command] none).port = .incomplete := by decide

theorem witness_ReservedHeaderRaisesIllegalOp :
    ((0x00FFFFFF#32).extractLsb' 24 8).toNat = 0 ∧ 7 ≤ ((0x07000000#32).extractLsb' 24 8).toNat ∧
      7 ≤ ((0xFF000000#32).extractLsb' 24 8).toNat ∧ blockConfigured.fault = false ∧
      (blockConfigured.raiseFault .protocol).fault = true ∧
      (blockConfigured.withInputs [0x07000000] [.command] none).port = 0x07000000 :: [] ∧
      (blockConfigured.withInputs [0x07000000] [.command] none).turns = .command :: [] ∧
      (blockConfigured.withInputs [0x00FFFFFF] [] none).port = 0x00FFFFFF :: [] ∧
      (blockConfigured.withInputs [0x00FFFFFF] [] none).turns = [] := by decide

theorem witness_PlacedWordRunsNext :
    decodeTableWord 32 0x04010002 = some (.displayText 1 [0, 0]) ∧ decodeTableWord 0 0 = some .tick ∧
      decodeTableWord 32 0x06FFFFFF = some .flush := by decide

theorem witness_HeaderFieldsAreReadAsTheRuleSays :
    (0x01FFFFFF#32).extractLsb' 24 8 = 1#8 ∧ (0x02000000#32).extractLsb' 24 8 = 2#8 ∧
      (0x03000000#32).extractLsb' 24 8 = 3#8 ∧ (0x06ABCDEF#32).extractLsb' 24 8 = 6#8 ∧
      (0x05808000#32).extractLsb' 24 8 = 5#8 ∧ (0x04010000#32).extractLsb' 24 8 = 4#8 ∧
      ((0x04010000#32).extractLsb' 0 8).toNat = 0 := by decide

theorem witness_DisplayTextTakesLenPayloadWords :
    (0x04010000#32).extractLsb' 24 8 = 4#8 ∧ ((0x04010000#32).extractLsb' 0 8).toNat = ([] : List Word).length ∧
      ((0x040100FF#32).extractLsb' 0 8).toNat = (List.replicate 255 (0x41#32)).length ∧
      (List.replicate 254 (0x41#32)).length < ((0x040100FF#32).extractLsb' 0 8).toNat := by decide +kernel

theorem witness_DecodeOfEncodeIsTheCommand :
    (Instr.set (-128) 127 0xFF).wellFormed = true ∧ (Instr.set (-128) 127 0xFF).isCommand = true ∧
      (Instr.displayText 127 (List.replicate 255 0x41)).wellFormed = true ∧
      (Instr.displayText 127 (List.replicate 255 0x41)).isCommand = true ∧
      Instr.configure.wellFormed = true ∧ Instr.configure.isCommand = true := by decide +kernel

theorem witness_DecodedCommandsAreWellFormed :
    decode [0x04FF0001, 0x39, 0x02000000] = .command (.displayText (-1) [0x39]) [0x02000000] := by decide

theorem witness_EncodeTextFillsItsSlots :
    1 ≤ 8 ∧ (∀ c ∈ ([0x31, 0x32] : List Byte), c ≠ 0x2E#8) ∧ ([0x2E] : List Byte) ≠ [] := by decide

/-- The text ".1..2": a leading full stop, a character with two, and one with none. -/
theorem witness_EncodeTextPlacesEachCharacter :
    (∀ p ∈ ([(0x2E, 0), (0x31, 2), (0x32, 0)] : List (Byte × Nat)).tail, p.1 ≠ 0x2E#8) ∧
      ([(0x2E, 0), (0x31, 2), (0x32, 0)] : List (Byte × Nat)).flatMap (fun p => p.1 :: List.replicate p.2 0x2E#8) =
        [0x2E, 0x31, 0x2E, 0x2E, 0x32] ∧ 1 ≤ 8 ∧ 7 < 8 := by decide

theorem witness_LeadingFullStopTakesASlot : (0x35#8) ≠ 0x2E#8 ∧ 1 ≤ 1 := by decide

theorem witness_RepeatedFullStopsActAsOne : ([0x31] : List Byte) ≠ [] ∧ 1 ≤ 1 := by decide

theorem witness_TruncationIgnoresTheRest :
    1 ≤ ([0x31] : List Byte).length ∧ (∀ x ∈ ([0x31] : List Byte), x ≠ 0x2E#8) ∧ (0x39#8) ≠ 0x2E#8 := by decide

/-- Both edges of BUILD_LINE's clauses: frames 31 and 32, and the first byte behind BUF. -/
theorem witness_BuildLineWritesItsLineBits : (31 < 34 ∧ 31 < 32) ∧ (32 < 34 ∧ ¬32 < 32) ∧ 1088 ≤ 1088 := by decide

theorem witness_BuildLineIsIdempotent :
    Memory.wf (coldFill []) ∧ lbAB.get 1 = State.reset.lb.get 1 ∧ lbAB ≠ State.reset.lb :=
  ⟨wf_coldFill wf_nil, by decide +kernel, by decide +kernel⟩

theorem witness_LinesBuildInEitherOrder : Memory.wf (coldFill []) := wf_coldFill wf_nil

theorem witness_BuildAllBuildsEveryLineInTurn : Memory.wf (buildLine lbAB 0 (coldFill [])) :=
  wf_buildLines (wf_coldFill wf_nil) _ _

theorem witness_DecodeInvertsBuildLine : LineCold (coldFill []) 19 ∧ 15 < 16 :=
  ⟨lineCold_coldFill [] 19, by decide⟩

theorem witness_OutOfRangeLineIsASilentNoOp :
    ((-1 : Int) < 0 ∨ 20 ≤ (-1 : Int)) ∧ ((20 : Int) < 0 ∨ 20 ≤ (20 : Int)) := by decide

theorem witness_WrongLifecycleRaisesProtocol :
    blockConfigured.fault = false ∧ blockConfigured.life ≠ .unconfigured ∧ State.reset.fault = false ∧
      State.reset.life = .unconfigured ∧ (0 : Int) ≤ 19 ∧ (19 : Int) < 20 ∧ (0 : Int) ≤ 7 ∧ (7 : Int) < 8 := by decide

theorem witness_FaultIsSticky :
    (blockRunning.raiseFault .illegalOp).fault = true ∧ (blockRunning.raiseFault .illegalOp).life = .running ∧
      Instr.stop.isCommand = true ∧
      ∃ t, step ((blockRunning.raiseFault .illegalOp).withInputs [] [.tick] none) = .next t :=
  ⟨rfl, rfl, rfl, _, rfl⟩

/-- One outcome for each clause of the lifecycle table. -/
theorem witness_LifecycleFollowsTheTable :
    (State.reset.fault = false ∧ State.reset.life = .unconfigured ∧ ∃ t, exec .configure State.reset = .next t) ∧
      (blockRunning.fault = false ∧ blockRunning.life ≠ .unconfigured ∧ (∃ t, exec .configure blockRunning = .next t) ∧
        (∃ t, exec .start blockRunning = .next t) ∧ (∃ t, exec .stop blockRunning = .next t) ∧
        ∃ t, exec (.set 0 7 0x31) blockRunning = .next t) ∧
      ((∃ t, exec .stop blockConfigured = .next t) ∧ blockConfigured.life = .configured) ∧
      ∃ t, exec (.displayText 20 []) State.reset = .next t :=
  ⟨⟨rfl, rfl, _, rfl⟩, ⟨rfl, by decide, ⟨_, rfl⟩, ⟨_, rfl⟩, ⟨_, rfl⟩, _, rfl⟩, ⟨⟨_, rfl⟩, rfl⟩, _, rfl⟩

/-- Both clauses of each command's statement: a good block in a legal and in an illegal lifecycle state. It serves
ConfigureBuildsTheColdBlock, StartRestartsTheReplay, StopHaltsTheReplay, DisplayTextRewritesItsLine, SetWritesOneCell and
FlushRebuildsEveryLine. -/
theorem witness_commands :
    State.reset.fault = false ∧ State.reset.life = .unconfigured ∧ blockConfigured.fault = false ∧
      blockConfigured.life ≠ .unconfigured ∧ blockRunning.fault = false ∧ blockRunning.life = .running := by decide

/-- The digits just outside the range, the ones SetWritesOneCell's last clause names. -/
theorem witness_SetWritesOneCell_digit : ((8 : Int) < 0 ∨ 8 ≤ (8 : Int)) ∧ ((-1 : Int) < 0 ∨ 8 ≤ (-1 : Int)) := by decide

/-- Boundaries of the ranges in those statements: the last data frame, the first guard frame, bits 1 and 22, and bytes
just inside and outside the data words. -/
theorem witness_commands_bounds :
    (31 < 34 ∧ 31 < 32) ∧ (33 < 34 ∧ ¬33 < 32) ∧ (1 < 2 ∨ 22 ≤ 1) ∧ (22 < 2 ∨ 22 ≤ 22) ∧ 271 < 272 ∧
      ¬(1088 / 4 < 272 ∧ 1088 / 4 % 34 < 32) ∧ ¬(128 / 4 < 272 ∧ 128 / 4 % 34 < 32) := by decide

theorem witness_StopHaltsTheReplay :
    ∃ t v, blockRunning.life ≠ .unconfigured ∧ exec .stop blockRunning = .next t ∧
      blockConfigured.life ≠ .running ∧ Instr.flush ≠ .start ∧ exec .flush blockConfigured = .next v ∧
      exec .tick blockConfigured = .next blockConfigured :=
  ⟨_, _, by decide, rfl, by decide, by decide, rfl, rfl⟩

theorem witness_EmptyTextBlanksItsLineOnly :
    ∃ t, blockConfigured.fault = false ∧ blockConfigured.life ≠ .unconfigured ∧
      exec (.displayText (19 : LineIndex).val []) blockConfigured = .next t ∧ (0 : LineIndex) ≠ 19 :=
  ⟨_, rfl, by decide, rfl, by decide⟩

theorem witness_SameTextTwiceIsRepeatable :
    ∃ t u, Memory.wf blockConfigured.mem ∧ exec (.displayText 0 [0x41, 0x2E, 0x42]) blockConfigured = .next t ∧
      exec (.displayText 0 [0x41, 0x2E, 0x42]) t = .next u :=
  ⟨_, _, wf_coldFill wf_nil, rfl, rfl⟩

/-- A cold line shows a blank LineBuffer. -/
theorem lineShown_of_cold {s : State} {l : LineIndex} (h : LineCold s.mem l)
    (hcell : ∀ d, LineBuffers.cell s.lb l d = 0xFF#8) : LineShown s l := by
  intro d
  have hbit : ∀ i : Fin 8, (0xFF#8).getLsbD i = true := by decide
  refine (hcell d).symm ▸ BitVec.eq_of_getLsbD_eq fun i hi => ?_
  rw [getLsbD_decodeSeg _ _ _ hi, h _ (wordAt_lt d (by omega)), hbit ⟨i, hi⟩]

/-- The cold buffer shows the blank LineBuffers of reset. -/
theorem lineShown_cold (l : LineIndex) : LineShown blockConfigured l :=
  lineShown_of_cold (lineCold_coldFill [] l)
    (by have h : ∀ (l : LineIndex) (d : DigitIndex), LineBuffers.cell State.reset.lb l d = 0xFF#8 := by decide +kernel
        exact h l)

/-- The configured block with line 0 built from its blank cells: a built line among cold ones, all of them shown. -/
def blockBuilt : State := blockConfigured.textShown 0 []

theorem lineBuilt_blockBuilt : LineBuilt blockBuilt.mem 0 (blockBuilt.lb.get 0) :=
  lineBuilt_buildLines_of_mem (by decide) (.inl (lineCold_coldFill [] 0))

theorem lineShown_blockBuilt (l : LineIndex) : LineShown blockBuilt l := by
  by_cases hl : l = 0
  · subst hl
    exact decodeSeg_of_lineBuilt lineBuilt_blockBuilt
  · refine lineShown_of_cold (fun a ha => ?_) ?_
    · refine (getLsbD_buildLines_of_ne (lines := [0]) (fun l' hl' e => hl ?_) _ _).trans (lineCold_coldFill [] l a ha)
      rw [← lineBit_injective e]
      exact List.mem_singleton.1 hl'
    · have h : ∀ (l : LineIndex) (d : DigitIndex), LineBuffers.cell blockBuilt.lb l d = 0xFF#8 := by decide +kernel
      exact h l

/-- A cold and a built line, frames 15 and 16 and 33, and a digit position beside the target. -/
theorem witness_SetThenFlushShowsOneNewCell :
    ∃ t u, blockBuilt.fault = false ∧ blockBuilt.life ≠ .unconfigured ∧ (∀ l, LineShown blockBuilt l) ∧
      exec (.set (19 : LineIndex).val (7 : DigitIndex).val 0x38) blockBuilt = .next t ∧ exec .flush t = .next u ∧
      LineColdOrBuilt blockBuilt.mem 19 ∧ LineBuilt blockBuilt.mem 0 (blockBuilt.lb.get 0) ∧ 15 < 16 ∧ (16 ≤ 33 ∧ 33 < 34) ∧
      ¬((19 : LineIndex) = 19 ∧ (6 : DigitIndex) = 7) :=
  ⟨_, _, rfl, by decide, lineShown_blockBuilt, rfl, rfl, lineColdOrBuilt_buildLines (.inl (lineCold_coldFill [] 19)) _ _,
    lineBuilt_blockBuilt, by decide, by decide, by decide⟩

theorem witness_ShownLinesStayShown :
    ∃ t u, exec (.displayText 0 [0x41]) blockConfigured = .next t ∧ LineShown blockConfigured 19 ∧
      blockConfigured.fault = false ∧ blockConfigured.life ≠ .unconfigured ∧
      exec (.displayText (19 : LineIndex).val [0x41]) blockConfigured = .next u :=
  ⟨_, _, rfl, lineShown_cold 19, rfl, by decide, rfl⟩

theorem witness_TickEmitsTheNextWord :
    blockRunning.life = .running ∧ blockRunning.race = none ∧ (atWord 271 0).rp.val = 271 ∧ (atWord 270 0).rp.val ≠ 271 ∧
      (atWord 271 0).life = .running ∧ (atWord 271 0).race = none ∧ blockConfigured.life ≠ .running := by decide

theorem witness_RacingTickReadsOldOrNewBits :
    blockRacing.life = .running ∧ blockRacing.race = some blockRunning.mem ∧ (1 < 2 ∨ 22 ≤ 1) ∧ (22 < 2 ∨ 22 ≤ 22) :=
  ⟨rfl, rfl, by decide, by decide⟩

theorem witness_RacingTextTouchesOnlyItsLine :
    ∃ t u v, blockRunning.fault = false ∧ blockRunning.life = .running ∧
      exec (.displayText (19 : LineIndex).val []) blockRunning = .next t ∧ exec .tick t = .next u ∧
      exec .tick { t with race := none } = .next v :=
  ⟨_, _, _, rfl, rfl, rfl, rfl, rfl⟩

/-- It serves ReplayEmitsTheBufferCyclically and IdlePortLeavesTheReplayRunning. -/
theorem witness_replay :
    blockRunning.life = .running ∧ blockRunning.race = none ∧ blockRunning.port = [] ∧ blockRunning.turns = [] :=
  ⟨rfl, rfl, rfl, rfl⟩

/-- The clauses of EdgesFallWhereTheLayoutSays at the last word, at the step into the latch frame and at a rising edge. -/
theorem witness_EdgesFallWhereTheLayoutSays :
    BufferFramed (coldFill []) ∧ 271 < 272 ∧ 271 % 34 = 33 ∧ 270 % 34 = 32 ∧ LineColdOrBuilt (coldFill []) 19 ∧
      clkRises (Memory.readWord (coldFill []) 0) (Memory.readWord (coldFill []) ((0 + 1) % 272)) = true := by
  refine ⟨bufferFramed_coldFill [], by decide, by decide, by decide, .inl (lineCold_coldFill [] 19), ?_⟩
  rw [readWord_coldFill, readWord_coldFill]
  decide +kernel

/-- Line 0 built on the cold buffer: framed and built. -/
theorem lineBuilt_AB : LineBuilt (buildLine lbAB 0 (coldFill [])) 0 (lbAB.get 0) :=
  lineBuilt_buildLines_of_mem (by decide) (.inl (lineCold_coldFill [] 0))

/-- A built line at digit cycle 7, and a cold one at digit cycle 0. -/
theorem witness_ReceiverLatchesTheDigitCycle :
    (∃ s : State, s.life = .running ∧ s.race = none ∧ BufferFramed s.mem ∧ LineColdOrBuilt s.mem 0 ∧
      s.rp.val = (7 : DigitIndex).val * 34 ∧ ∃ line, LineBuilt s.mem 0 line) ∧
    (blockRunning.life = .running ∧ blockRunning.race = none ∧ BufferFramed blockRunning.mem ∧
      LineColdOrBuilt blockRunning.mem 19 ∧ blockRunning.rp.val = (0 : DigitIndex).val * 34 ∧ LineCold blockRunning.mem 19) ∧
    33 < 34 :=
  ⟨⟨{ blockRunning with mem := buildLine lbAB 0 (coldFill []), rp := 238 }, rfl, rfl,
      bufferFramed_buildLines (bufferFramed_coldFill []) _ _, .inr ⟨_, lineBuilt_AB⟩, rfl, _, lineBuilt_AB⟩,
    ⟨rfl, rfl, bufferFramed_coldFill [], .inl (lineCold_coldFill [] 19), rfl, lineCold_coldFill [] 19⟩, by decide⟩

/-- The Running block with line 0 built in BUF. -/
def blockRunningBuilt : State := { blockRunning with mem := buildLine lbAB 0 (coldFill []) }

theorem bufferFramed_AB : BufferFramed blockRunningBuilt.mem := bufferFramed_buildLines (bufferFramed_coldFill []) _ _

/-- A digit cycle of which twenty TICKs fall inside the command, over a cold line; and, for the last clause, line 0 built
before and after a DISPLAY_TEXT of it. -/
theorem witness_RacingDigitCycleMixesOldAndNewBits :
    (blockRacing.life = .running ∧ blockRacing.race = some (coldFill []) ∧ BufferFramed (coldFill []) ∧
      BufferFramed blockRacing.mem ∧ LineColdOrBuilt (coldFill []) 19 ∧ LineColdOrBuilt blockRacing.mem 19 ∧
      blockRacing.rp.val = (0 : DigitIndex).val * 34 ∧ 20 + 14 = 34 ∧ 15 < 16 ∧ 7 < 8) ∧
    ((blockRunningBuilt.textShown 0 []).race = some blockRunningBuilt.mem ∧
      (∃ line, LineBuilt blockRunningBuilt.mem 0 line) ∧ ∃ line, LineBuilt (blockRunningBuilt.textShown 0 []).mem 0 line) :=
  ⟨⟨rfl, rfl, bufferFramed_coldFill [], bufferFramed_buildLines (bufferFramed_coldFill []) _ _,
      .inl (lineCold_coldFill [] 19), lineColdOrBuilt_buildLines (.inl (lineCold_coldFill [] 19)) _ _, rfl, rfl,
      by decide, by decide⟩,
    ⟨rfl, ⟨_, lineBuilt_AB⟩, _, lineBuilt_buildLines_of_mem (by decide) (.inr ⟨_, lineBuilt_AB⟩)⟩⟩

/-- DISPLAY_TEXT of line 19 after three TICKs of digit cycle 0, twenty more inside it, while line 0 is built. -/
theorem witness_RebuildInMidCycleMixesOldAndNewBits :
    ∃ t, (Instr.displayText (19 : LineIndex).val [0x41]).isCommand = true ∧
      Instr.displayText (19 : LineIndex).val [0x41] ≠ .start ∧ Instr.displayText (19 : LineIndex).val [0x41] ≠ .stop ∧
      blockRunningBuilt.life = .running ∧ blockRunningBuilt.race = none ∧ BufferFramed blockRunningBuilt.mem ∧
      LineColdOrBuilt blockRunningBuilt.mem 0 ∧ blockRunningBuilt.rp.val = (0 : DigitIndex).val * 34 ∧ 3 + 20 + 11 = 34 ∧
      exec (.displayText (19 : LineIndex).val [0x41])
        (watchTicks 0 (fun _ => false) 3 blockRunningBuilt ⟨0, 0⟩).1 = .next t ∧
      (∃ line, LineBuilt blockRunningBuilt.mem 0 line) ∧ (19 : LineIndex) ≠ 0 :=
  ⟨_, rfl, (by decide), (by decide), rfl, rfl, bufferFramed_AB, .inr ⟨_, lineBuilt_AB⟩, rfl, rfl, rfl, ⟨_, lineBuilt_AB⟩,
    by decide⟩

/-- A valid pin map, a routed and loaded block, a connected line, and a pin the map does not name. -/
theorem witness_PinsCarryTheirBits :
    somePins.valid = true ∧ (State.ticked blockRunning).route = true ∧ (State.ticked blockRunning).outValid = true ∧
      somePins.linePin.get 19 = some 7 ∧ 8 ∉ somePins.pins := by decide +kernel

theorem witness_OnlyItsWritersChangeAField :
    (∃ t, exec .tick blockRunning = .next t) ∧ (∃ t, exec (.displayText 19 [0x41]) blockRunning = .next t) ∧
      ∃ t, exec .configure blockRunning = .next t ∧ t.fault = true :=
  ⟨⟨_, rfl⟩, ⟨_, rfl⟩, _, rfl, rfl⟩

/-- The invariant holds of the configured block, of the Running one, and of the Running one with a command racing: the
last is where StepKeepsTheInvariant and StartMakesNoSpuriousEdge have most to say. -/
theorem inv_blockRacing : Inv blockRacing where
  control := ⟨rfl, rfl, rfl, fun _ => ⟨rfl, rfl, rfl⟩, rfl, rfl, (fun h => nomatch h), rfl⟩
  buffer := ⟨wf_buildLines (wf_coldFill wf_nil) _ _,
    fun _ => bufferFramed_buildLines (bufferFramed_coldFill []) _ _,
    fun old h => by
      obtain rfl : coldFill [] = old := Option.some.inj h
      exact ⟨rfl, wf_coldFill wf_nil, bufferFramed_coldFill []⟩,
    (fun h => nomatch h)⟩

theorem witness_StartMakesNoSpuriousEdge :
    ∃ t u, Inv blockRacing ∧ blockRacing.fault = false ∧ blockRacing.life ≠ .unconfigured ∧
      exec .start blockRacing = .next t ∧ exec .tick t = .next u :=
  ⟨_, _, inv_blockRacing, rfl, by decide, rfl, rfl⟩

theorem witness_StepKeepsTheInvariant : ∃ t, Inv blockRacing ∧ step blockRacing = .next t :=
  ⟨_, inv_blockRacing, rfl⟩

theorem linesInv_blockRacing : LinesInv blockRacing where
  buffer := fun _ l => lineColdOrBuilt_buildLines (.inl (lineCold_coldFill [] l)) _ _
  race := fun old h l => by
    obtain rfl : coldFill [] = old := Option.some.inj h
    exact .inl (lineCold_coldFill [] l)

theorem witness_StepKeepsLinesColdOrBuilt : ∃ t, LinesInv blockRacing ∧ step blockRacing = .next t :=
  ⟨_, linesInv_blockRacing, rfl⟩

end Sys2Proof.Tests
end

section
/-! SUPPORT. The values of ENCODE on the two sides of its range test (40_glyph_encoder.md R101). -/

namespace Sys2Proof.Machine

/-- The range test of ENCODE, on the character's number. -/
theorem outside_glyphRange_iff (c : Byte) :
    (c < Config.charLo ∨ Config.charHi < c) ↔ (c.toNat < 0x20 ∨ 0x7A < c.toNat) := Iff.rfl

/-- Outside the range ENCODE does not consult the table (R101). -/
theorem encodeWith_of_outside (g : Byte → Byte) {c : Byte} (h : c.toNat < 0x20 ∨ 0x7A < c.toNat) :
    encodeWith g c = 0xFF#8 :=
  if_pos ((outside_glyphRange_iff c).mpr h)

/-- Inside the range ENCODE is active low where the table is active high (R101). -/
theorem encodeWith_of_inside (g : Byte → Byte) {c : Byte} (h : ¬(c.toNat < 0x20 ∨ 0x7A < c.toNat)) :
    encodeWith g c = ~~~(g c) :=
  if_neg (mt (outside_glyphRange_iff c).mp h)

/-- Settles O13, by the two sides of the range test; that the machine encodes with GLYPH is ENCODE's definition. -/
theorem encodeInvertsTheTableInsideTheRange : Obligations.EncodeInvertsTheTableInsideTheRange := by
  refine ⟨fun g c => ?_, fun _ => rfl⟩
  split
  case isTrue outside => exact encodeWith_of_outside g outside
  case isFalse inside => exact encodeWith_of_inside g inside

end Sys2Proof.Machine
end

section
/-! SUPPORT. The words of the cold buffer and the two outcomes of CONFIGURE in a good block
(41_frame_builder.md R124; 42_controller_commands.md R142). -/

namespace Sys2Proof.Machine

/-- The cold words as numbers: every line bit set, and the control bits by the kind of frame. A digit cycle has an even
number of frames, so a data frame's clock bit is the parity of the word index. -/
theorem coldWord_eq (a : Nat) :
    coldWord a =
      if a % 34 = 33 then 0x003FFFFE#32 else if a % 2 = 0 then 0x003FFFFC#32 else 0x003FFFFD#32 := by
  have hparity : a % 34 % 2 = a % 2 := Nat.mod_mod_of_dvd a (by decide)
  rw [coldWord, frameOf_eq, ← hparity]
  have hframe : a % 34 < 32 ∨ a % 34 = 32 ∨ a % 34 = 33 := by omega
  rcases hframe with hdata | hidle | hlatch
  · rw [if_neg (by omega)]
    rcases Nat.mod_two_eq_zero_or_one (a % 34) with heven | hodd
    · rw [ctrl_even hdata heven, if_pos heven]; rfl
    · rw [ctrl_odd hdata hodd, if_neg (by omega)]; rfl
  · rw [hidle]; rfl
  · rw [hlatch]; rfl

/-- The first fault of a good block takes the kind's own code (R194, R195). -/
theorem raiseFault_of_good {s : State} (kind : FaultKind) (hgood : s.fault = false) :
    s.raiseFault kind = { s with fault := true, faultCode := kind.code } := by
  simp [State.raiseFault, hgood]

/-- CONFIGURE has no operand to check, so in a good block the lifecycle alone decides (R141, R142). -/
theorem exec_configure_of_good {s : State} (hgood : s.fault = false) :
    exec .configure s = .next (if s.life = .unconfigured then s.configured else s.raiseFault .protocol) := by
  have hpass : exec .configure s =
      .next (if legalForConfigure s.life then s.configured else s.raiseFault .protocol) :=
    command_of_pass hgood (by simp) (by simp)
  simpa using hpass

/-- Settles O27, by the two outcomes of CONFIGURE; the witness of the first is the configured state itself. -/
theorem configureBuildsTheColdBlock : Obligations.ConfigureBuildsTheColdBlock := by
  intro s hgood
  rw [exec_configure_of_good hgood]
  refine ⟨fun hlife => ⟨s.configured, by rw [if_pos hlife], fun a ha => ?_, fun b hb => ?_, rfl⟩, fun hlife => ?_⟩
  · rw [State.configured_mem, readWord_coldFill, if_pos ha, coldWord_eq]
  · rw [State.configured_mem, readByte_coldFill_of_ge _ (by omega)]
  · rw [if_neg hlife, raiseFault_of_good .protocol hgood]
    rfl

end Sys2Proof.Machine
end

section
/-! SUPPORT. The line check of DISPLAY_TEXT and SET on an index out of range (60_exceptions.md R191). -/

namespace Sys2Proof.Machine

/-- The line check fails on exactly the integers outside [0, 20) (R141 step 2). -/
theorem lineInRange_eq_false_iff {line : Int} : lineInRange line = false ↔ line < 0 ∨ 20 ≤ line := by
  rw [← Bool.not_eq_true, lineInRange_iff]
  omega

/-- Settles O23: only the sticky fault is looked at before the line, and it too leaves the state as it was; the digit,
the lifecycle and the command's own effect come after. -/
theorem outOfRangeLineIsASilentNoOp : Obligations.OutOfRangeLineIsASilentNoOp := by
  intro s line digit text char hline
  have hcheck : lineInRange line = false := lineInRange_eq_false_iff.mpr hline
  constructor
  · show execDisplayText line text s = .next s
    exact command_of_line hcheck
  · show execSet line digit char s = .next s
    exact command_of_line hcheck

end Sys2Proof.Machine
end

section
/-! SUPPORT. The decoder on whole words: what it takes for each operation code, and that it undoes the encoder
(30_encoding.md R72 to R75). -/

namespace Sys2Proof

/-- The operation codes: the six commands', or a reserved one (R75). -/
theorem opField_cases (h : Word) :
    opField h = 0x01#8 ∨ opField h = 0x02#8 ∨ opField h = 0x03#8 ∨ opField h = 0x04#8 ∨ opField h = 0x05#8 ∨
      opField h = 0x06#8 ∨ (opField h).toNat = 0 ∨ 7 ≤ (opField h).toNat := by
  generalize opField h = op
  have hnum : op.toNat = 1 ∨ op.toNat = 2 ∨ op.toNat = 3 ∨ op.toNat = 4 ∨ op.toNat = 5 ∨ op.toNat = 6 ∨
      op.toNat = 0 ∨ 7 ≤ op.toNat := by omega
  simpa only [← BitVec.toNat_inj, BitVec.toNat_ofNat] using hnum

/-- A payload of the text's characters is as long as the LEN field of its header says, up to TEXT_MAX (R74). -/
theorem zext8_length_of_fitsText {text : List Byte} (h : fitsText text = true) :
    zext8 (BitVec.ofNat 8 text.length) = (text.map payloadWord).length := by
  have hlen : text.length ≤ 255 := by simpa [fitsText] using h
  rw [zext8, BitVec.toNat_ofNat, List.length_map]
  exact Nat.mod_eq_of_lt (by omega)

/-- Decoding DISPLAY_TEXT's encoding gives it back. -/
theorem decode_encode_displayText {line : Int} {text : List Byte} (hline : fitsIndexField line = true)
    (htext : fitsText text = true) (rest : List Word) :
    decode (encode (.displayText line text) ++ rest) = .command (.displayText line text) rest := by
  obtain ⟨hlo, hhi⟩ := fitsIndexField_iff.1 hline
  have hlen := zext8_length_of_fitsText htext
  refine (decode_displayText _ (opField_headerWord ..)).trans
    ((decodeText_append (by simpa using hlen.symm) rest).trans ?_)
  simp [sext8_indexField hlo hhi, Function.comp_def]

/-- Decoding SET's encoding gives it back. -/
theorem decode_encode_set {line digit : Int} (char : Byte) (hline : fitsIndexField line = true)
    (hdigit : fitsIndexField digit = true) (rest : List Word) :
    decode (encode (.set line digit char) ++ rest) = .command (.set line digit char) rest := by
  obtain ⟨hlo, hhi⟩ := fitsIndexField_iff.1 hline
  obtain ⟨dlo, dhi⟩ := fitsIndexField_iff.1 hdigit
  refine (decode_set _ (opField_headerWord ..)).trans ?_
  simp [sext8_indexField hlo hhi, sext8_indexField dlo dhi]

/-- Settles O11, command by command: a header's fields read back as written, and a payload is as long as its LEN. -/
theorem decodeOfEncodeIsTheCommand : Obligations.DecodeOfEncodeIsTheCommand := by
  intro i rest hwf hcommand
  cases i with
  | configure => exact decode_configure rest (opField_headerWord ..)
  | start => exact decode_start rest (opField_headerWord ..)
  | stop => exact decode_stop rest (opField_headerWord ..)
  | flush => exact decode_flush rest (opField_headerWord ..)
  | displayText line text =>
    obtain ⟨hline, htext⟩ := Bool.and_eq_true_iff.1 hwf
    exact decode_encode_displayText hline htext rest
  | set line digit char =>
    obtain ⟨hline, hdigit⟩ := Bool.and_eq_true_iff.1 hwf
    exact decode_encode_set char hline hdigit rest
  | tick => cases hcommand

/-- With fewer payload words than LEN on the port there is no command yet (log entry 15). -/
theorem decodeText_of_short {h : Word} {rest : List Word} (hlen : rest.length < zext8 (argField h)) :
    decodeText h rest = .incomplete :=
  if_pos hlen

/-- Settles O10, by the two sides of the test on the payload's length. -/
theorem displayTextTakesLenPayloadWords : Obligations.DisplayTextTakesLenPayloadWords := by
  intro h payload rest hop
  refine ⟨fun hlen => ?_, fun hshort => ?_⟩
  · rw [decode_displayText _ hop]
    exact decodeText_append hlen.symm rest
  · rw [decode_displayText _ hop]
    exact decodeText_of_short hshort

/-- A sign-extended field is an index that fits the field. -/
theorem fitsIndexField_sext8 (f : Byte) : fitsIndexField (sext8 f) = true :=
  fitsIndexField_iff.2 ⟨BitVec.le_toInt f, Int.le_of_lt_add_one BitVec.toInt_lt⟩

/-- A DISPLAY_TEXT answered from a header and the words after it has a wire form and took the header's LEN words. -/
theorem decodeText_command {h : Word} {ws rest : List Word} {i : Instr} (hd : decodeText h ws = .command i rest) :
    i.wellFormed = true ∧ i.isCommand = true ∧ ∃ used, h :: ws = used ++ rest ∧ used.length = i.portLength := by
  have hlen : zext8 (argField h) ≤ 255 := Nat.le_of_lt_succ (argField h).isLt
  unfold decodeText at hd
  split at hd
  case isTrue => cases hd
  case isFalse hwhole =>
    cases hd
    refine ⟨?_, rfl, h :: ws.take (zext8 (argField h)), by simp, ?_⟩
    · simp only [Instr.wellFormed, fitsIndexField_sext8, fitsText, Bool.true_and, decide_eq_true_eq, List.length_map,
        List.length_take]
      exact Nat.le_trans (Nat.min_le_left _ _) hlen
    · simp [Instr.portLength, Nat.add_comm]

/-- Settles O12, by the operation code of the header: only DISPLAY_TEXT takes words beyond it. -/
theorem decodedCommandsAreWellFormed : Obligations.DecodedCommandsAreWellFormed := by
  intro ws i rest hdec
  cases ws with
  | nil => cases hdec
  | cons h ws =>
    rcases opField_cases h with ho | ho | ho | ho | ho | ho | ho
    · rw [decode_configure ws ho] at hdec; cases hdec
      exact ⟨rfl, rfl, [h], rfl, rfl⟩
    · rw [decode_start ws ho] at hdec; cases hdec
      exact ⟨rfl, rfl, [h], rfl, rfl⟩
    · rw [decode_stop ws ho] at hdec; cases hdec
      exact ⟨rfl, rfl, [h], rfl, rfl⟩
    · rw [decode_displayText ws ho] at hdec
      exact decodeText_command hdec
    · rw [decode_set ws ho] at hdec; cases hdec
      exact ⟨by simp [Instr.wellFormed, fitsIndexField_sext8], rfl, [h], rfl, rfl⟩
    · rw [decode_flush ws ho] at hdec; cases hdec
      exact ⟨rfl, rfl, [h], rfl, rfl⟩
    · rw [decode_reserved ws ho] at hdec; cases hdec

/-- Settles O8: the words of the vectors, decoded. -/
theorem wordsOfTheVectorsDecode : Obligations.WordsOfTheVectorsDecode := by
  unfold Obligations.WordsOfTheVectorsDecode
  decide

/-- Settles O9: one decoding lemma for each operation code, the fields under their names. -/
theorem headerFieldsAreReadAsTheRuleSays : Obligations.HeaderFieldsAreReadAsTheRuleSays := by
  intro h rest
  refine ⟨decode_configure rest, decode_start rest, decode_stop rest, decode_flush rest, decode_set rest,
    fun hop hlen => ?_⟩
  rw [decode_displayText rest hop]
  exact decodeText_append (payload := []) hlen.symm rest

/-- Behind a header that has all its payload words, the decoder reads the same command whatever words follow, or
rejects the header whatever words follow. -/
theorem decode_whole {h : Word} {payload : List Word} (hlen : payload.length = payloadLength h) :
    (∃ i, ∀ rest, decode (h :: payload ++ rest) = .command i rest) ∨
      ∀ rest, decode (h :: payload ++ rest) = .illegalOp h (payload ++ rest) := by
  by_cases htext : opField h = 0x04#8
  · rw [payloadLength, if_pos htext] at hlen
    exact .inl ⟨_, fun rest => (decode_displayText _ htext).trans (decodeText_append hlen rest)⟩
  · rw [payloadLength, if_neg htext, List.length_eq_zero_iff] at hlen
    subst hlen
    rcases opField_cases h with ho | ho | ho | ho | ho | ho | ho
    · exact .inl ⟨_, fun rest => decode_configure rest ho⟩
    · exact .inl ⟨_, fun rest => decode_start rest ho⟩
    · exact .inl ⟨_, fun rest => decode_stop rest ho⟩
    · exact absurd ho htext
    · exact .inl ⟨_, fun rest => decode_set rest ho⟩
    · exact .inl ⟨_, fun rest => decode_flush rest ho⟩
    · exact .inr fun rest => decode_reserved rest ho

/-- The words of a table row are a header and its payload words, so the command they decode to leaves the words
behind them. -/
theorem decode_tableWords_append {nbits w : Nat} {i : Instr} {rest : List Word}
    (h : decode (tableWords nbits w) = .command i rest) (port : List Word) :
    decode (tableWords nbits w ++ port) = .command i port := by
  rcases decode_whole (h := BitVec.ofNat 32 (w % 2 ^ nbits))
      (payload := (List.range (payloadLength (BitVec.ofNat 32 (w % 2 ^ nbits)))).map
        fun j => BitVec.ofNat 32 ((w % 2 ^ nbits) >>> (32 * (j + 1)))) (by simp) with ⟨i', hi'⟩ | hill
  · have hrest := (hi' []).symm.trans ((congrArg decode (List.append_nil _)).trans h)
    cases hrest
    exact hi' port
  · have hrest := (hill []).symm.trans ((congrArg decode (List.append_nil _)).trans h)
    cases hrest

end Sys2Proof
end

section
/-! SUPPORT. The invariants under the sampled word, the instructions' effects and the moving on of the inputs
(10_state.md R27, R30 to R38; 20_memory.md R58). -/

namespace Sys2Proof.Machine

/-! ### The word a TICK samples -/

/-- A racing read has the old word's control and unused bits (R58). -/
theorem getLsbD_raceWord_of_not_line (pick old new : Word) {i : Nat} (hi : ¬(2 ≤ i ∧ i < 22)) :
    (raceWord pick old new).getLsbD i = old.getLsbD i := by
  rw [getLsbD_raceWord, getLsbD_linesMask, decide_eq_false hi]
  rfl

/-- A racing read has each bit from the old or the new word (R58). -/
theorem getLsbD_raceWord_or (pick old new : Word) (i : Nat) :
    (raceWord pick old new).getLsbD i = old.getLsbD i ∨ (raceWord pick old new).getLsbD i = new.getLsbD i := by
  rw [getLsbD_raceWord]
  split
  · exact .inr rfl
  · exact .inl rfl

/-- A racing read of two framed words is framed: outside the line bits it is the old word, and in a guard frame the two
agree on the line bits. -/
theorem WordFramed.raceWord {a : Nat} {old new : Word} (hold : WordFramed a old) (hnew : WordFramed a new) (pick : Word) :
    WordFramed a (raceWord pick old new) := by
  refine ⟨?_, ?_, fun i hi => ?_, fun hguard l => ?_⟩
  · rw [getLsbD_raceWord_of_not_line _ _ _ (by decide), hold.clk]
  · rw [getLsbD_raceWord_of_not_line _ _ _ (by decide), hold.latch]
  · rw [getLsbD_raceWord_of_not_line _ _ _ (by omega), hold.unused i hi]
  · rw [getLsbD_raceWord, hold.guard hguard l, hnew.guard hguard l, ite_self]

/-- What a TICK samples is framed as its word index says, race or not. -/
theorem wordFramed_sampledWord {s : State} (hmem : BufferFramed s.mem)
    (hrace : ∀ old, s.race = some old → BufferFramed old) : WordFramed s.rp s.sampledWord := by
  cases h : s.race with
  | none =>
    rw [sampledWord_of_no_race h]
    exact hmem _ s.rp.isLt
  | some old =>
    rw [sampledWord_of_race h]
    exact (hrace old h _ s.rp.isLt).raceWord (hmem _ s.rp.isLt) _

/-- CLK is high in the odd data frames only (R122). -/
theorem getLsbD_ctrl_clk (f : Nat) : (ctrl f).getLsbD 0 = decide (f < 32 ∧ f % 2 = 1) := by
  by_cases hdata : f < 32
  · rcases Nat.mod_two_eq_zero_or_one f with h | h
    · simp [ctrl_even hdata h, h]
    · simp [ctrl_odd hdata h, h, hdata]
  · rw [ctrl_def, if_neg hdata]
    split <;> simp [hdata]

/-- LATCH is high behind the first guard frame only (R122). -/
theorem getLsbD_ctrl_latch (f : Nat) : (ctrl f).getLsbD 1 = decide (33 ≤ f) := by
  by_cases hdata : f < 32
  · rcases Nat.mod_two_eq_zero_or_one f with h | h
    · simp [ctrl_even hdata h]; omega
    · simp [ctrl_odd hdata h]; omega
  · rw [ctrl_def, if_neg hdata]
    split
    case isTrue hidle => simp [hidle]
    case isFalse hidle => simp; omega

/-- A framed word never has CLK and LATCH high together (R175). -/
theorem WordFramed.not_clk_and_latch {a : Nat} {w : Word} (h : WordFramed a w) :
    ¬(w.getLsbD Config.clkBit = true ∧ w.getLsbD Config.latchBit = true) := by
  rw [h.clk, h.latch, getLsbD_ctrl_clk, getLsbD_ctrl_latch]
  simp only [decide_eq_true_eq]
  omega

/-! ### The control state -/

/-- A fault raised keeps the control state consistent: its code is a kind's code. -/
theorem ControlInv.raiseFault {s : State} (h : ControlInv s) (kind : FaultKind) : ControlInv (s.raiseFault kind) where
  txEn := h.txEn
  route := h.route
  attached := h.attached
  desc := h.desc
  intEna := h.intEna
  dscrErr := h.dscrErr
  outValid := h.outValid
  faultCode := by
    have hcode := h.faultCode
    cases hf : s.fault with
    | true => simpa [hf] using hcode
    | false => cases kind <;> simp [hf, FaultKind.code]

/-- Every effect keeps the control state consistent with LIFE. -/
theorem ControlInv.effect {i : Instr} {s t : State} (h : ControlInv s) (he : Effect i s t) : ControlInv t := by
  obtain ⟨htxEn, hroute, hattached, hdesc, hintEna, hdscrErr, houtValid, hfault⟩ := h
  cases he with
  | configure hlife =>
    have hdetached : s.desc.attached = false := by simp [hattached, hlife]
    exact ⟨rfl, rfl, rfl, fun _ => ⟨rfl, rfl, rfl⟩, rfl, rfl, fun _ => houtValid hdetached, hfault⟩
  | start hlife =>
    exact ⟨rfl, by simp [hroute, hlife], rfl, fun _ => hdesc hlife, rfl, rfl, (fun hd => nomatch hd), hfault⟩
  | stop hlife =>
    by_cases hrunning : s.life = .running
    · exact ⟨by simp [hrunning], by simp [hroute, hrunning], by simp [hattached, hrunning],
        fun _ => hdesc hlife, hintEna, hdscrErr, houtValid, hfault⟩
    · exact ⟨by simp [hrunning], by simpa [hrunning] using hroute, by simpa [hrunning] using hattached,
        fun _ => hdesc hlife, hintEna, hdscrErr, houtValid, hfault⟩
  | displayText => exact ⟨htxEn, hroute, hattached, hdesc, hintEna, hdscrErr, houtValid, hfault⟩
  | set => exact ⟨htxEn, hroute, hattached, hdesc, hintEna, hdscrErr, houtValid, hfault⟩
  | flush => exact ⟨htxEn, hroute, hattached, hdesc, hintEna, hdscrErr, houtValid, hfault⟩
  | tick hrunning =>
    have hatt : s.desc.attached = true := by simp [hattached, hrunning]
    refine ⟨htxEn, hroute, hattached, hdesc, hintEna, ?_, fun hd => absurd (hatt.symm.trans hd) (by decide), hfault⟩
    rw [State.ticked_intRaw]
    split <;> exact hdscrErr

/-! ### The buffer -/

/-- A command rebuilding some lines keeps the buffer's invariant: while Running the old contents are such a buffer. -/
theorem BufferInv.rebuild {s : State} (h : BufferInv s) (hlife : s.life ≠ .unconfigured) (lb : LineBuffers)
    (lines : List LineIndex) : BufferInv (s.rebuild (buildLines lb lines s.mem)) where
  wf := wf_buildLines h.wf lb lines
  framed := fun _ => bufferFramed_buildLines (h.framed hlife) lb lines
  race := by
    intro old hold
    rw [State.rebuild_race] at hold
    split at hold
    case isTrue hrunning =>
      cases hold
      exact ⟨hrunning, h.wf, h.framed hlife⟩
    case isFalse => cases hold
  out := h.out

/-- Every effect keeps the buffer's invariant, where no command begins while another races. -/
theorem BufferInv.effect {i : Instr} {s t : State} (h : BufferInv s) (hraced : i.isCommand = true → s.race = none)
    (he : Effect i s t) : BufferInv t := by
  have hno : i.isCommand = true → ∀ old, s.race ≠ some old := fun hc old hold => by
    rw [hraced hc] at hold
    cases hold
  cases he with
  | configure =>
    exact ⟨wf_coldFill h.wf, fun _ => bufferFramed_coldFill _, fun old hold => absurd hold (hno rfl old), h.out⟩
  | start hlife => exact ⟨h.wf, fun _ => h.framed hlife, fun old hold => absurd hold (hno rfl old), h.out⟩
  | stop hlife => exact ⟨h.wf, fun _ => h.framed hlife, fun old hold => absurd hold (hno rfl old), h.out⟩
  | @displayText s line text _ _ hlife =>
    have hre := h.rebuild hlife (LineBuffers.setLine s.lb (toLine line) (encodeLine text)) [toLine line]
    exact ⟨hre.wf, hre.framed, hre.race, hre.out⟩
  | set => exact ⟨h.wf, h.framed, h.race, h.out⟩
  | flush hlife => exact h.rebuild hlife s.lb allLines
  | tick hrunning =>
    have hframed := wordFramed_sampledWord (h.framed (by simp [hrunning])) fun old hold => (h.race old hold).2.2
    exact ⟨h.wf, h.framed, h.race, fun _ => ⟨hframed.unused, hframed.not_clk_and_latch⟩⟩

/-! ### The two invariants over steps -/

/-- Moving on the inputs, with the race kept or ended, keeps the invariant of the block. -/
theorem Inv.withInputs {s : State} (h : Inv s) (port : List Word) (turns : List Turn) {race : Option Memory}
    (hrace : race = s.race ∨ race = none) : Inv (s.withInputs port turns race) := by
  obtain ⟨hcontrol, hbuffer⟩ := h
  refine ⟨⟨hcontrol.txEn, hcontrol.route, hcontrol.attached, hcontrol.desc, hcontrol.intEna, hcontrol.dscrErr,
    hcontrol.outValid, hcontrol.faultCode⟩, hbuffer.wf, hbuffer.framed, fun old hold => ?_, hbuffer.out⟩
  rcases hrace with rfl | rfl
  · exact hbuffer.race old hold
  · cases hold

/-- A fault raised keeps the invariant of the block. -/
theorem Inv.raiseFault {s : State} (h : Inv s) (kind : FaultKind) : Inv (s.raiseFault kind) :=
  ⟨h.control.raiseFault kind, h.buffer.wf, h.buffer.framed, h.buffer.race, h.buffer.out⟩

/-- Moving on the inputs, with the race kept or ended, keeps every line cold or built. -/
theorem LinesInv.withInputs {s : State} (h : LinesInv s) (port : List Word) (turns : List Turn) {race : Option Memory}
    (hrace : race = s.race ∨ race = none) : LinesInv (s.withInputs port turns race) := by
  refine ⟨h.buffer, fun old hold => ?_⟩
  rcases hrace with rfl | rfl
  · exact h.race old hold
  · cases hold

/-- A fault raised keeps every line cold or built. -/
theorem LinesInv.raiseFault {s : State} (h : LinesInv s) (kind : FaultKind) : LinesInv (s.raiseFault kind) :=
  ⟨h.buffer, h.race⟩

/-- A command rebuilding some lines keeps every line cold or built, in BUF and in the old contents. -/
theorem LinesInv.rebuild {s : State} (h : LinesInv s) (hlife : s.life ≠ .unconfigured) (lb : LineBuffers)
    (lines : List LineIndex) : LinesInv (s.rebuild (buildLines lb lines s.mem)) where
  buffer := fun _ l => lineColdOrBuilt_buildLines (h.buffer hlife l) lb lines
  race := by
    intro old hold
    rw [State.rebuild_race] at hold
    split at hold
    case isTrue =>
      cases hold
      exact h.buffer hlife
    case isFalse => cases hold

/-- Every effect keeps every line cold or built. -/
theorem LinesInv.effect {i : Instr} {s t : State} (h : LinesInv s) (he : Effect i s t) : LinesInv t := by
  cases he with
  | configure => exact ⟨fun _ l => .inl (lineCold_coldFill _ l), h.race⟩
  | start hlife => exact ⟨fun _ => h.buffer hlife, h.race⟩
  | stop hlife => exact ⟨fun _ => h.buffer hlife, h.race⟩
  | @displayText s line text _ _ hlife =>
    have hre := h.rebuild hlife (LineBuffers.setLine s.lb (toLine line) (encodeLine text)) [toLine line]
    exact ⟨hre.buffer, hre.race⟩
  | set => exact ⟨h.buffer, h.race⟩
  | flush hlife => exact h.rebuild hlife s.lb allLines
  | tick => exact ⟨h.buffer, h.race⟩

/-- An instruction runs in the state before it, the inputs moved on; a command never begins while another races (R57). -/
theorem RunsIn.inputs {s s' : State} {i : Instr} (h : RunsIn s i s') :
    ∃ port turns race, s' = s.withInputs port turns race ∧ (race = s.race ∨ race = none) ∧
      (i.isCommand = true → s'.race = none) := by
  obtain ⟨port, turns, race, rfl, ⟨-, rfl⟩ | ⟨rfl, hrace⟩⟩ := h
  · exact ⟨port, turns, none, rfl, .inr rfl, fun _ => rfl⟩
  · exact ⟨port, turns, race, rfl, hrace, fun hcommand => nomatch hcommand⟩

/-- What moving on the inputs, raising a fault and every effect keep, every step keeps: a step moves on the inputs, and
then an instruction has its effect or raises PROTOCOL, the decoder raises ILLEGAL_OP, or nothing more happens. -/
theorem step_keeps {P : State → Prop}
    (hinputs : ∀ s port turns race, race = s.race ∨ race = none → P s → P (s.withInputs port turns race))
    (hfault : ∀ s kind, P s → P (s.raiseFault kind))
    (heffect : ∀ i s t, (i.isCommand = true → s.race = none) → Effect i s t → P s → P t)
    {s t : State} (hs : P s) (hstep : step s = .next t) : P t := by
  rcases step_cases hstep with ⟨i, s', hruns, hexec⟩ | ⟨port, turns, race, hrace, rfl | ⟨-, rfl⟩⟩
  · obtain ⟨port, turns, race, rfl, hrace, hraced⟩ := hruns.inputs
    have hmoved := hinputs s port turns race hrace hs
    rcases exec_cases hexec with rfl | ⟨-, -, rfl⟩ | ⟨-, he⟩
    · exact hmoved
    · exact hfault _ .protocol hmoved
    · exact heffect i _ t hraced he hmoved
  · exact hinputs s port turns race hrace hs
  · exact hfault _ .illegalOp (hinputs s port turns race hrace hs)

/-- Settles O49: the inputs, the faults and the effects keep the invariant. -/
theorem stepKeepsTheInvariant : Obligations.StepKeepsTheInvariant := fun _ _ =>
  step_keeps (fun _ port turns _ hrace h => h.withInputs port turns hrace) (fun _ kind h => h.raiseFault kind)
    fun _ _ _ hraced he h => ⟨h.control.effect he, h.buffer.effect hraced he⟩

/-- Settles O50: the inputs, the faults and the effects keep every line cold or built. -/
theorem stepKeepsLinesColdOrBuilt : Obligations.StepKeepsLinesColdOrBuilt := fun _ _ =>
  step_keeps (fun _ port turns _ hrace h => h.withInputs port turns hrace) (fun _ kind h => h.raiseFault kind)
    fun _ _ _ _ he h => h.effect he

/-- Settles O48: the reset state is Unconfigured, with no race and an unloaded OUT, so only the control state has
something to meet. -/
theorem resetMeetsTheInvariant : Obligations.ResetMeetsTheInvariant where
  left := {
    control := ⟨rfl, rfl, rfl, fun h => absurd rfl h, rfl, rfl, fun _ => rfl, rfl⟩
    buffer := ⟨wf_nil, fun h => absurd rfl h, (fun _ h => nomatch h), fun h => nomatch h⟩ }
  right := ⟨fun h => absurd rfl h, fun _ h => nomatch h⟩

end Sys2Proof.Machine
end

section
/-! SUPPORT. Whose turn the next step is and what it runs (20_memory.md R57; 30_encoding.md R74, R75; 43_replay_engine.md
R170), and that nothing stops the block (60_exceptions.md R200). -/

namespace Sys2Proof.Machine

/-! ### The moves -/

section moves

variable {s : State} {turns : List Turn}

theorem step_of_run {i : Instr} {s' : State} (h : s.nextMove = .run i s') : step s = exec i s' := by
  rw [step, h]

theorem step_of_settle {s' : State} (h : s.nextMove = .settle s') : step s = .next s' := by
  rw [step, h]

theorem nextMove_of_command_turn (ht : s.turns = .command :: turns) :
    s.nextMove = State.fetchCommand { s with turns := turns } := by
  rw [State.nextMove, ht]

theorem nextMove_of_tick_turn (ht : s.turns = .tick :: turns) : s.nextMove = .run .tick { s with turns := turns } := by
  rw [State.nextMove, ht]

theorem nextMove_of_returned_turn (ht : s.turns = .returned :: turns) :
    s.nextMove = .settle { s with turns := turns, race := none } := by
  rw [State.nextMove, ht]

theorem nextMove_of_no_turn (ht : s.turns = []) : s.nextMove = s.defaultMove := by
  rw [State.nextMove, ht]

/-- Without a fixed turn, what waits on the port goes first (log entry 3). -/
theorem nextMove_of_waiting (ht : s.turns = []) (hd : decode s.port ≠ .incomplete) : s.nextMove = s.fetchCommand := by
  have hw : s.commandWaiting = true := by
    unfold State.commandWaiting
    split
    case h_1 h => exact absurd h hd
    all_goals rfl
  rw [nextMove_of_no_turn ht, State.defaultMove, hw]
  rfl

/-- Without a fixed turn and a whole command, the replay agent moves (log entry 3). -/
theorem nextMove_of_not_waiting (ht : s.turns = []) (hd : decode s.port = .incomplete) :
    s.nextMove = .run .tick { s with race := none } := by
  have hw : s.commandWaiting = false := by rw [State.commandWaiting, hd]
  rw [nextMove_of_no_turn ht, State.defaultMove, hw]
  rfl

theorem fetchCommand_of_command {i : Instr} {rest : List Word} (hd : decode s.port = .command i rest) :
    s.fetchCommand = .run i { s with port := rest, race := none } := by
  rw [State.fetchCommand, hd]

theorem fetchCommand_of_illegalOp {h : Word} {rest : List Word} (hd : decode s.port = .illegalOp h rest) :
    s.fetchCommand = .settle (State.rejectHeader { s with port := rest, race := none }) := by
  rw [State.fetchCommand, hd]

theorem fetchCommand_of_incomplete (hd : decode s.port = .incomplete) : s.fetchCommand = .settle s := by
  rw [State.fetchCommand, hd]

end moves

/-- Settles O3: on either turn the move is the fetch, and the fetch runs the decoded command. -/
theorem stepRunsTheDecodedCommand : Obligations.StepRunsTheDecodedCommand := by
  intro s i rest hdec
  refine ⟨fun turns ht => step_of_run ?_, fun ht => step_of_run ?_⟩
  · exact (nextMove_of_command_turn ht).trans (fetchCommand_of_command hdec)
  · exact (nextMove_of_waiting ht (by simp [hdec])).trans (fetchCommand_of_command hdec)

/-- Settles O4, one turn after another. -/
theorem stepTakesTheOtherTurns : Obligations.StepTakesTheOtherTurns := by
  intro s
  refine ⟨fun turns ht => step_of_run (nextMove_of_tick_turn ht), fun ht hdec => step_of_run (nextMove_of_not_waiting ht hdec),
    fun turns ht => step_of_settle (nextMove_of_returned_turn ht), fun turns ht hdec => step_of_settle ?_⟩
  exact (nextMove_of_command_turn ht).trans (fetchCommand_of_incomplete hdec)

/-- A rejected header raises ILLEGAL_OP in a good block (R75). -/
theorem rejectHeader_of_good {s : State} (hgood : s.fault = false) :
    s.rejectHeader = { s with fault := true, faultCode := 2 } := by
  rw [State.rejectHeader, hgood, raiseFault_of_good _ hgood]
  rfl

/-- A rejected header changes nothing once FAULT is set (R199). -/
theorem rejectHeader_of_fault {s : State} (hfault : s.fault = true) : s.rejectHeader = s := by
  rw [State.rejectHeader, hfault]
  rfl

/-- Settles O5: on either turn the step rejects the header, and FAULT decides what that does. -/
theorem reservedHeaderRaisesIllegalOp : Obligations.ReservedHeaderRaisesIllegalOp := by
  intro s h rest hport hop
  have hdec : decode s.port = .illegalOp h rest := hport ▸ decode_reserved rest hop
  refine ⟨fun turns ht => ?_, fun ht => ?_⟩
  · rw [step_of_settle ((nextMove_of_command_turn ht).trans (fetchCommand_of_illegalOp hdec))]
    exact ⟨fun hgood => congrArg _ (rejectHeader_of_good hgood), fun hfault => congrArg _ (rejectHeader_of_fault hfault)⟩
  · rw [step_of_settle ((nextMove_of_waiting ht (by simp [hdec])).trans (fetchCommand_of_illegalOp hdec))]
    exact ⟨fun hgood => congrArg _ (rejectHeader_of_good hgood), fun hfault => congrArg _ (rejectHeader_of_fault hfault)⟩

/-- A command answers a next state, whatever its checks find (R200). -/
theorem command_next (s : State) (line digit : Option Int) (legal : Life → Bool) (effect : State) :
    ∃ t, s.command line digit legal effect = .next t := by
  rcases command_cases s line digit legal effect with h | ⟨-, h⟩ | ⟨-, h⟩ <;> exact ⟨_, h⟩

/-- Every instruction answers a next state. -/
theorem exec_next (i : Instr) (s : State) : ∃ t, exec i s = .next t := by
  cases i with
  | configure => exact command_next ..
  | start => exact command_next ..
  | stop => exact command_next ..
  | displayText => exact command_next ..
  | set => exact command_next ..
  | flush => exact command_next ..
  | tick =>
    rw [exec_tick]
    split <;> exact ⟨_, rfl⟩

/-- Settles O6: a move runs an instruction or settles the inputs. -/
theorem everyStepAnswersANextState : Obligations.EveryStepAnswersANextState := by
  refine ⟨exec_next, fun s => ?_⟩
  rcases nextMove_spec s with ⟨i, s', hmove, -⟩ | ⟨s', hmove, -⟩
  · rw [step_of_run hmove]
    exact exec_next i s'
  · exact ⟨s', step_of_settle hmove⟩

/-- What a row with bits decodes to, the decoder found in its words. -/
theorem decode_of_decodeTableWord {nbits w : Nat} {i : Instr} (hbits : nbits ≠ 0)
    (h : decodeTableWord nbits w = some i) : ∃ rest, decode (tableWords nbits w) = .command i rest := by
  rw [decodeTableWord, if_neg hbits] at h
  split at h
  case h_1 i' rest hdec =>
    cases h
    exact ⟨rest, hdec⟩
  all_goals cases h

/-- Settles O7: the row of no bits is the replay agent's turn; any other row's words are read as one whole command, and
the port behind them is as it was. -/
theorem placedWordRunsNext : Obligations.PlacedWordRunsNext := by
  intro s nbits w i hrow
  by_cases hbits : nbits = 0
  · subst hbits
    cases hrow
    exact step_of_run (nextMove_of_tick_turn rfl)
  · obtain ⟨rest, hdec⟩ := decode_of_decodeTableWord hbits hrow
    have hne : i ≠ .tick := by
      rintro rfl
      exact nomatch decode_ne_tick hdec
    have hplaced : s.withFetchWord nbits w =
        { s with port := tableWords nbits w ++ s.port, turns := .command :: s.turns } := if_neg hbits
    rw [if_neg hne, hplaced, step_of_run ((nextMove_of_command_turn rfl).trans
      (fetchCommand_of_command (decode_tableWords_append hdec s.port)))]

/-- Settles O1: each value is the reset state's own, and with no command waiting the block's step is a TICK, idle
outside Running. -/
theorem resetHoldsTheTablesValues : Obligations.ResetHoldsTheTablesValues := by
  have hcell : ∀ l d, LineBuffers.cell State.reset.lb l d = 0xFF#8 := fun l d => by
    simp [LineBuffers.cell, State.reset, Vector.get]
  have hstep : step State.reset = .next State.reset := step_of_run (nextMove_of_not_waiting rfl rfl)
  exact ⟨rfl, hcell, lookup_nil, rfl, rfl, rfl, rfl, rfl, rfl, rfl, rfl, rfl, hstep⟩

/-- Settles O2: the numbers by evaluation, the bit positions and tables by their own lemmas. -/
theorem parametersMeetTheirConstraints : Obligations.ParametersMeetTheirConstraints := by
  refine ⟨rfl, rfl, rfl, rfl, rfl, by decide, by decide, by decide, fun l => ?_, fun l l' => lineBit_injective, by decide,
    fun d i => ?_, fun c => glyph_of_outside, by decide⟩
  · have hlo := lineBit_ge l
    have hhi := lineBit_lt l
    simp only [Config.clkBit, Config.latchBit, Config.wordBits]
    omega
  · exact (getLsbD_digitSel d i).trans (decide_eq_decide.2 Fin.ext_iff.symm)

end Sys2Proof.Machine
end

section
/-! SUPPORT. The commands in a good block, one equation each; the fault outcome and its stickiness; what each instruction
leaves unchanged (42_controller_commands.md R141 to R148; 60_exceptions.md R194, R195). -/

namespace Sys2Proof.Machine

/-! ### The commands in a good block -/

/-- A command that is legal once configured, its indexes in range: its effect, or the PROTOCOL fault before CONFIGURE. -/
theorem command_onceConfigured_of_good {s effect : State} {line digit : Option Int} (hgood : s.fault = false)
    (hl : ∀ l, line = some l → lineInRange l = true) (hd : ∀ d, digit = some d → digitInRange d = true) :
    s.command line digit legalOnceConfigured effect =
      .next (if s.life = .unconfigured then s.raiseFault .protocol else effect) := by
  rw [command_of_pass hgood hl hd, legalOnceConfigured_eq]
  by_cases hlife : s.life = .unconfigured <;> simp [hlife]

section good

variable {s : State} (hgood : s.fault = false)
include hgood

theorem exec_start_of_good :
    exec .start s = .next (if s.life = .unconfigured then s.raiseFault .protocol else s.started) :=
  command_onceConfigured_of_good hgood (by simp) (by simp)

theorem exec_stop_of_good :
    exec .stop s = .next (if s.life = .unconfigured then s.raiseFault .protocol else s.halted) :=
  command_onceConfigured_of_good hgood (by simp) (by simp)

theorem exec_flush_of_good :
    exec .flush s = .next (if s.life = .unconfigured then s.raiseFault .protocol else s.flushed) :=
  command_onceConfigured_of_good hgood (by simp) (by simp)

theorem exec_displayText_of_good {line : Int} (hline : lineInRange line = true) (text : List Byte) :
    exec (.displayText line text) s =
      .next (if s.life = .unconfigured then s.raiseFault .protocol else s.textShown (toLine line) text) :=
  command_onceConfigured_of_good hgood (by rintro _ ⟨⟩; exact hline) (by simp)

theorem exec_set_of_good {line digit : Int} (hline : lineInRange line = true) (hdigit : digitInRange digit = true)
    (char : Byte) :
    exec (.set line digit char) s =
      .next (if s.life = .unconfigured then s.raiseFault .protocol
        else s.cellSet (toLine line) (toDigit digit) char) :=
  command_onceConfigured_of_good hgood (by rintro _ ⟨⟩; exact hline) (by rintro _ ⟨⟩; exact hdigit)

/-- The PROTOCOL fault of a good block, its code as a number (R195). -/
theorem raiseFault_protocol_of_good : s.raiseFault .protocol = { s with fault := true, faultCode := 1 } :=
  raiseFault_of_good .protocol hgood

end good

/-- The index of a line is in range. -/
theorem lineInRange_coe (l : LineIndex) : lineInRange (l.val : Int) = true :=
  lineInRange_iff.2 ⟨by omega, by omega⟩

/-- The index of a digit position is in range. -/
theorem digitInRange_coe (d : DigitIndex) : digitInRange (d.val : Int) = true :=
  digitInRange_iff.2 ⟨by omega, by omega⟩

@[simp] theorem toLine_coe (l : LineIndex) : toLine (l.val : Int) = l :=
  Fin.ext (Nat.mod_eq_of_lt l.isLt)

@[simp] theorem toDigit_coe (d : DigitIndex) : toDigit (d.val : Int) = d :=
  Fin.ext (Nat.mod_eq_of_lt d.isLt)

/-- The digit check fails on exactly the integers outside [0, 8) (R141 step 3). -/
theorem digitInRange_eq_false_iff {digit : Int} : digitInRange digit = false ↔ digit < 0 ∨ 8 ≤ digit := by
  rw [← Bool.not_eq_true, digitInRange_iff]
  omega

/-- Settles O24: in a good block, with its indexes in range, the lifecycle alone decides. -/
theorem wrongLifecycleRaisesProtocol : Obligations.WrongLifecycleRaisesProtocol := by
  intro s line digit text char hgood
  rw [← raiseFault_protocol_of_good hgood]
  refine ⟨fun hlife => ?_, fun hlife => ⟨?_, ?_, ?_, fun h0 h1 => ?_⟩⟩
  · rw [exec_configure_of_good hgood, if_neg hlife]
  · rw [exec_start_of_good hgood, if_pos hlife]
  · rw [exec_stop_of_good hgood, if_pos hlife]
  · rw [exec_flush_of_good hgood, if_pos hlife]
  · have hline := lineInRange_iff.2 ⟨h0, h1⟩
    refine ⟨?_, fun h2 h3 => ?_⟩
    · rw [exec_displayText_of_good hgood hline, if_pos hlife]
    · rw [exec_set_of_good hgood hline (digitInRange_iff.2 ⟨h2, h3⟩), if_pos hlife]

/-- Settles O28, by START's two outcomes in a good block. -/
theorem startRestartsTheReplay : Obligations.StartRestartsTheReplay := by
  intro s hgood
  rw [exec_start_of_good hgood, ← raiseFault_protocol_of_good hgood]
  refine ⟨fun hlife => ?_, fun hlife => ?_⟩
  · rw [if_neg hlife]
    rfl
  · rw [if_pos hlife]

/-! ### LIFE, OUT and FAULT under an effect -/

/-- No effect touches FAULT: only the FAULT outcome does (R34). -/
theorem Effect.fault {i : Instr} {s t : State} (h : Effect i s t) : t.fault = s.fault ∧ t.faultCode = s.faultCode := by
  cases h <;> exact ⟨rfl, rfl⟩

/-- Only START makes the block Running (R21, R148). -/
theorem Effect.life_ne_running {i : Instr} {s t : State} (h : Effect i s t) (hi : i ≠ .start)
    (hs : s.life ≠ .running) : t.life ≠ .running := by
  cases h with
  | start => exact absurd rfl hi
  | configure => exact fun h => nomatch h
  | stop => rwa [State.halted_life, if_neg hs]
  | displayText => exact hs
  | set => exact hs
  | flush => exact hs
  | tick => exact hs

/-- Only a TICK writes OUT (R26). -/
theorem Effect.out {i : Instr} {s t : State} (h : Effect i s t) (hi : i ≠ .tick) : t.out = s.out := by
  cases h with
  | tick => exact absurd rfl hi
  | configure => rfl
  | start => rfl
  | stop => rfl
  | displayText => rfl
  | set => rfl
  | flush => rfl

/-- Outside Running a TICK is idle (log entry 7). -/
theorem exec_tick_of_not_running {s : State} (h : s.life ≠ .running) : exec .tick s = .next s :=
  (exec_tick s).trans (if_neg h)

theorem exec_tick_of_running {s : State} (h : s.life = .running) : exec .tick s = .next s.ticked :=
  (exec_tick s).trans (if_pos h)

/-- Settles O29: STOP's two outcomes in a good block, and the instructions one by one outside Running. -/
theorem stopHaltsTheReplay : Obligations.StopHaltsTheReplay := by
  intro s hgood
  rw [exec_stop_of_good hgood]
  refine ⟨fun hlife => ?_, fun hlife => ?_, fun t hlife ht => ?_, fun i u v hu hi hexec => ?_⟩
  · rw [if_neg hlife]
    rfl
  · rw [if_pos hlife, raiseFault_protocol_of_good hgood]
  · rw [if_neg hlife] at ht
    cases ht
    rw [State.halted_life]
    split
    · exact fun h => nomatch h
    · assumption
  · by_cases htick : i = .tick
    · subst htick
      cases (exec_tick_of_not_running hu).symm.trans hexec
      exact ⟨hu, rfl, fun _ => rfl⟩
    · rcases exec_cases hexec with rfl | ⟨-, -, rfl⟩ | ⟨-, heffect⟩
      · exact ⟨hu, rfl, fun _ => rfl⟩
      · exact ⟨hu, rfl, fun h => absurd h htick⟩
      · exact ⟨heffect.life_ne_running hi hu, heffect.out htick, fun h => absurd h htick⟩

/-- Once FAULT is set every command is a no-op (R34, R194). -/
theorem exec_of_fault {i : Instr} {s : State} (hfault : s.fault = true) (hcommand : i.isCommand = true) :
    exec i s = .next s := by
  cases i with
  | tick => cases hcommand
  | configure => exact command_of_fault hfault
  | start => exact command_of_fault hfault
  | stop => exact command_of_fault hfault
  | displayText => exact command_of_fault hfault
  | set => exact command_of_fault hfault
  | flush => exact command_of_fault hfault

/-- A FAULT that is set, with its code, is kept by every step (R34). -/
theorem step_keeps_fault {s t : State} (hfault : s.fault = true) (hstep : step s = .next t) :
    t.fault = true ∧ t.faultCode = s.faultCode := by
  refine step_keeps (P := fun u => u.fault = true ∧ u.faultCode = s.faultCode) (fun _ _ _ _ _ hu => hu)
    (fun u kind hu => ⟨rfl, ?_⟩) (fun i u v _ he hu => ?_) ⟨hfault, rfl⟩ hstep
  · rw [State.raiseFault_faultCode, if_pos hu.1, hu.2]
  · obtain ⟨hf, hcode⟩ := he.fault
    exact ⟨hf.trans hu.1, hcode.trans hu.2⟩

/-- Settles O25: the checks stop every command, no step touches a FAULT that is set, and TICK does not look at it. -/
theorem faultIsSticky : Obligations.FaultIsSticky :=
  ⟨fun _ _ => exec_of_fault, fun _ _ => step_keeps_fault,
    fun s _ hlife => ⟨_, exec_tick_of_running hlife, rfl, nextWord_val s.rp⟩⟩

/-! ### When the PROTOCOL fault is raised -/

/-- A command in a good block that raised the PROTOCOL fault found LIFE outside its legal states. -/
theorem illegal_of_command_raises {s effect : State} {line digit : Option Int} {legal : Life → Bool}
    (hgood : s.fault = false) (h : s.command line digit legal effect = .next (s.raiseFault .protocol))
    (heffect : effect.fault = s.fault) : legal s.life = false := by
  have hne : ∀ t : State, t.fault = s.fault → t ≠ s.raiseFault .protocol := by
    rintro _ ht rfl
    exact absurd (hgood.symm.trans ht.symm) (by simp)
  rcases command_cases s line digit legal effect with h' | ⟨hcheck, -⟩ | ⟨-, h'⟩
  · exact absurd (Host.Outcome.next.inj (h'.symm.trans h)) (hne s rfl)
  · exact (fault_of_check_protocol hcheck).2
  · exact absurd (Host.Outcome.next.inj (h'.symm.trans h)) (hne effect heffect)

/-- The PROTOCOL fault is raised by CONFIGURE once configured, and by the other commands before it (R141, R195). -/
theorem configure_iff_of_raises {i : Instr} {s : State} (hgood : s.fault = false)
    (h : exec i s = .next (s.raiseFault .protocol)) : i = .configure ↔ s.life ≠ .unconfigured := by
  have hlater : ∀ {line digit : Option Int} {effect : State},
      s.command line digit legalOnceConfigured effect = .next (s.raiseFault .protocol) → effect.fault = s.fault →
      s.life = .unconfigured :=
    fun hc heffect => by simpa using illegal_of_command_raises hgood hc heffect
  cases i with
  | configure => simpa using illegal_of_command_raises hgood h rfl
  | start => simpa using hlater h rfl
  | stop => simpa using hlater h rfl
  | displayText => simpa using hlater h rfl
  | set => simpa using hlater h rfl
  | flush => simpa using hlater h rfl
  | tick =>
    have hticked : s.fault = true := by
      rw [exec_tick] at h
      split at h
      · exact congrArg State.fault (Host.Outcome.next.inj h)
      · exact congrArg State.fault (Host.Outcome.next.inj h)
    exact absurd (hgood.symm.trans hticked) (by decide)

/-- No command but CONFIGURE, START and STOP writes LIFE (R21). -/
theorem Effect.life {i : Instr} {s t : State} (h : Effect i s t) (h0 : i ≠ .configure) (h1 : i ≠ .start)
    (h2 : i ≠ .stop) : t.life = s.life ∧ t.txEn = s.txEn := by
  cases h with
  | configure => exact absurd rfl h0
  | start => exact absurd rfl h1
  | stop => exact absurd rfl h2
  | displayText => exact ⟨rfl, rfl⟩
  | set => exact ⟨rfl, rfl⟩
  | flush => exact ⟨rfl, rfl⟩
  | tick => exact ⟨rfl, rfl⟩

/-- No effect leads to Unconfigured (R148). -/
theorem Effect.life_ne_unconfigured {i : Instr} {s t : State} (h : Effect i s t) : t.life ≠ .unconfigured := by
  cases h with
  | configure => exact fun h => nomatch h
  | start => exact fun h => nomatch h
  | stop hlife =>
    rw [State.halted_life]
    split
    · exact fun h => nomatch h
    · exact hlife
  | displayText _ _ hlife => exact hlife
  | set _ _ _ _ hlife => exact hlife
  | flush hlife => exact hlife
  | tick hlife =>
    rw [State.ticked_life, hlife]
    exact fun h => nomatch h

/-- Before CONFIGURE no other instruction has an effect. -/
theorem Effect.configured_of_ne {i : Instr} {s t : State} (h : Effect i s t) (hi : i ≠ .configure) :
    s.life ≠ .unconfigured := by
  cases h with
  | configure => exact absurd rfl hi
  | start hlife => exact hlife
  | stop hlife => exact hlife
  | displayText _ _ hlife => exact hlife
  | set _ _ _ _ hlife => exact hlife
  | flush hlife => exact hlife
  | tick hlife => simp [hlife]

/-- Settles O26: CONFIGURE, START and STOP by their outcomes in a good block, the others by what an instruction can do. -/
theorem lifecycleFollowsTheTable : Obligations.LifecycleFollowsTheTable := by
  intro i s t hcommand hgood hexec
  refine ⟨?_, ?_, ?_, fun h0 h1 h2 hlife => ?_, fun h0 hlife => ?_, fun ht => ?_⟩
  · rintro rfl
    rw [exec_configure_of_good hgood] at hexec
    cases hexec
    refine ⟨fun hlife => ?_, fun hlife => ?_⟩
    · rw [if_pos hlife]
      exact ⟨rfl, hgood⟩
    · rw [if_neg hlife, raiseFault_protocol_of_good hgood]
      exact ⟨rfl, rfl, rfl⟩
  · rintro rfl hlife
    rw [exec_start_of_good hgood, if_neg hlife] at hexec
    cases hexec
    exact ⟨rfl, rfl, hgood⟩
  · rintro rfl hlife
    rw [exec_stop_of_good hgood, if_neg hlife] at hexec
    cases hexec
    refine ⟨hgood, ?_⟩
    rw [State.halted_life]
    cases hl : s.life <;> simp_all
  · rcases exec_cases hexec with rfl | ⟨-, -, rfl⟩ | ⟨-, heffect⟩
    · exact ⟨rfl, hgood⟩
    · exact absurd ((configure_iff_of_raises hgood hexec).2 hlife) h0
    · exact ⟨(heffect.life h0 h1 h2).1, heffect.fault.1.trans hgood⟩
  · rcases exec_cases hexec with rfl | ⟨-, -, rfl⟩ | ⟨-, heffect⟩
    · exact hlife
    · exact hlife
    · exact absurd hlife (heffect.configured_of_ne h0)
  · rcases exec_cases hexec with rfl | ⟨-, -, rfl⟩ | ⟨-, heffect⟩
    · exact ht
    · exact ht
    · exact absurd ht heffect.life_ne_unconfigured

/-- Settles O47: the state as it was and the FAULT outcome change no field but FAULT's; of an effect, each field its
instruction does not write is the old one by definition. -/
theorem onlyItsWritersChangeAField : Obligations.OnlyItsWritersChangeAField := by
  intro i s t hexec
  rcases exec_cases hexec with rfl | ⟨hgood, hcommand, rfl⟩ | ⟨-, heffect⟩
  · simp
  · have htick : i ≠ .tick := by
      rintro rfl
      cases hcommand
    refine ⟨?_, ?_, ?_, ?_, ?_, ?_, ?_, ?_, fun h => absurd h htick, .inr ⟨hgood, hcommand,
      configure_iff_of_raises hgood hexec, raiseFault_protocol_of_good hgood⟩, rfl, rfl⟩
    all_goals simp
  · cases heffect <;> simp

end Sys2Proof.Machine
end

section
/-! SUPPORT. ENCODE_TEXT over characters and the full stops behind them: what a scan leaves in each slot
(40_glyph_encoder.md R104 to R107). -/

namespace Sys2Proof.Machine

/-! ### Merging and padding -/

/-- The merge lights the point of the last slot and keeps the others. -/
theorem getElem?_mergePoint (out : List Byte) (j : Nat) :
    (mergePoint out)[j]? = out[j]?.map fun m => if j = out.length - 1 then lightPoint m else m := by
  rcases List.eq_nil_or_concat out with rfl | ⟨ms, m, rfl⟩
  · rfl
  · rw [List.concat_eq_append, mergePoint_append]
    rcases Nat.lt_trichotomy j ms.length with hlt | rfl | hgt
    · have hne : j ≠ ms.length := by omega
      rw [List.getElem?_append_left hlt, List.getElem?_append_left hlt]
      simp [hne]
    · simp
    · have hnone : ∀ m' : Byte, (ms ++ [m'])[j]? = none := fun m' => List.getElem?_eq_none (by simp; omega)
      rw [hnone, hnone]
      rfl

/-- Merging a full stop twice is merging it once (R106). -/
theorem mergePoint_mergePoint (out : List Byte) : mergePoint (mergePoint out) = mergePoint out := by
  rcases List.eq_nil_or_concat out with rfl | ⟨ms, m, rfl⟩
  · rfl
  · rw [List.concat_eq_append, mergePoint_append, mergePoint_append, lightPoint_lightPoint]

/-- A scan's masks padded with blanks to n slots. -/
def padded (n : Nat) (out : List Byte) : List Byte := out ++ List.replicate (n - out.length) Config.blank

/-- ENCODE_TEXT is the scan, padded (R103, R104). -/
theorem encodeTextWith_eq_padded (glyph : Byte → Byte) (text : List Byte) (n : Nat) :
    encodeTextWith glyph text n = padded n (scanText glyph n text []) := rfl

/-- Slot j of padded masks is mask j, or blank behind them. -/
theorem getElem?_padded {n j : Nat} (hj : j < n) (out : List Byte) : (padded n out)[j]? = some (out[j]?.getD 0xFF#8) := by
  rw [padded]
  by_cases hout : j < out.length
  · rw [List.getElem?_append_left hout, List.getElem?_eq_getElem hout]
    rfl
  · rw [List.getElem?_append_right (by omega), List.getElem?_replicate_of_lt (by omega),
      List.getElem?_eq_none (by omega)]
    rfl

/-- A full stop merged before the padding is merged behind it, where a mask has been emitted. -/
theorem getElem?_padded_mergePoint {n j : Nat} (hj : j < n) {out : List Byte} (hout : out ≠ []) :
    (padded n (mergePoint out))[j]? =
      ((padded n out)[j]?).map fun m => if j = out.length - 1 then lightPoint m else m := by
  rw [getElem?_padded hj, getElem?_padded hj, getElem?_mergePoint]
  have hpos : 0 < out.length := List.length_pos_iff.2 hout
  by_cases hlt : j < out.length
  · simp [hlt]
  · have hne : j ≠ out.length - 1 := by omega
    rw [List.getElem?_eq_none (by omega)]
    simp [hne]

/-! ### Scanning -/

section scan

variable {g : Byte → Byte} {n : Nat}

/-- Two full stops behind a mask merge like one. -/
theorem scanText_fullStop_fullStop {out : List Byte} (h : 0 < out.length) (after : List Byte) :
    scanText g n (Config.fullStop :: Config.fullStop :: after) out = scanText g n (Config.fullStop :: after) out := by
  rw [scanText_fullStop g n h, scanText_fullStop g n (by simpa using h), scanText_fullStop g n h, mergePoint_mergePoint]

/-- Behind any text, or any mask, two full stops are scanned as one. -/
theorem scanText_append_fullStops (before after : List Byte) {out : List Byte} (h : before ≠ [] ∨ 0 < out.length) :
    scanText g n (before ++ Config.fullStop :: Config.fullStop :: after) out =
      scanText g n (before ++ Config.fullStop :: after) out := by
  induction before generalizing out with
  | nil => exact scanText_fullStop_fullStop (h.resolve_left fun hne => hne rfl) after
  | cons c before ih =>
    rw [List.cons_append, List.cons_append]
    by_cases hc : c = Config.fullStop ∧ 0 < out.length
    · obtain ⟨rfl, hpos⟩ := hc
      rw [scanText_fullStop g n hpos, scanText_fullStop g n hpos]
      exact ih (.inr (by simpa using hpos))
    · by_cases hn : out.length = n
      · rw [scanText_full g n hc hn, scanText_full g n hc hn]
      · rw [scanText_slot g n hc hn, scanText_slot g n hc hn]
        exact ih (.inr (by simp))

/-- A full stop behind a text merges into its last mask, or, where the scan has ended before, is ignored. -/
theorem scanText_append_fullStop (text : List Byte) {out : List Byte} (h : text ≠ [] ∨ 0 < out.length) :
    scanText g n (text ++ [Config.fullStop]) out = mergePoint (scanText g n text out) ∨
      scanText g n (text ++ [Config.fullStop]) out = scanText g n text out := by
  induction text generalizing out with
  | nil => exact .inl (scanText_fullStop g n (h.resolve_left fun hne => hne rfl) [])
  | cons c text ih =>
    rw [List.cons_append]
    by_cases hc : c = Config.fullStop ∧ 0 < out.length
    · obtain ⟨rfl, hpos⟩ := hc
      rw [scanText_fullStop g n hpos, scanText_fullStop g n hpos]
      exact ih (.inr (by simpa using hpos))
    · by_cases hn : out.length = n
      · rw [scanText_full g n hc hn, scanText_full g n hc hn]
        exact .inr rfl
      · rw [scanText_slot g n hc hn, scanText_slot g n hc hn]
        exact ih (.inr (by simp))

/-- The slot of a character with k full stops behind it: its mask, the point lit where there is a full stop. -/
def slotMask (g : Byte → Byte) (c : Byte) (k : Nat) : Byte :=
  if 1 ≤ k then lightPoint (encodeWith g c) else encodeWith g c

/-- A run of full stops behind a mask lights its point, and only if the run is not empty. -/
theorem scanText_replicate_fullStop (k : Nat) (rest out : List Byte) (m : Byte) :
    scanText g n (List.replicate k Config.fullStop ++ rest) (out ++ [m]) =
      scanText g n rest (out ++ [if 1 ≤ k then lightPoint m else m]) := by
  induction k generalizing m with
  | zero => rfl
  | succ k ih =>
    rw [List.replicate_succ, List.cons_append, scanText_fullStop g n (by simp), mergePoint_append, ih]
    simp [lightPoint_lightPoint]

/-- A character that does not merge, with its full stops, fills one slot (R104, R105). -/
theorem scanText_group {c : Byte} (k : Nat) (rest : List Byte) {out : List Byte} (hc : out ≠ [] → c ≠ Config.fullStop)
    (hn : out.length < n) :
    scanText g n (c :: List.replicate k Config.fullStop ++ rest) out = scanText g n rest (out ++ [slotMask g c k]) := by
  rw [List.cons_append, scanText_slot g n (fun h => hc (List.length_pos_iff.1 h.2) h.1) (Nat.ne_of_lt hn),
    scanText_replicate_fullStop, slotMask]

end scan

/-! ### A text as characters with their full stops -/

/-- The text of characters with their full stops. -/
def groupsText (groups : List (Byte × Nat)) : List Byte :=
  groups.flatMap fun p => p.1 :: List.replicate p.2 Config.fullStop

theorem groupsText_cons (p : Byte × Nat) (groups : List (Byte × Nat)) :
    groupsText (p :: groups) = p.1 :: List.replicate p.2 Config.fullStop ++ groupsText groups := rfl

/-- Every text that is not empty has this form: only its first character may be a full stop itself. -/
theorem exists_groupsText (c : Byte) (text : List Byte) :
    ∃ k groups, c :: text = groupsText ((c, k) :: groups) ∧ ∀ p ∈ groups, p.1 ≠ Config.fullStop := by
  induction text generalizing c with
  | nil => exact ⟨0, [], rfl, by simp⟩
  | cons c' text ih =>
    obtain ⟨k, groups, htext, hgroups⟩ := ih c'
    rw [htext]
    by_cases hstop : c' = Config.fullStop
    · subst hstop
      exact ⟨k + 1, groups, rfl, hgroups⟩
    · exact ⟨0, (c', k) :: groups, rfl, List.forall_mem_cons.2 ⟨hstop, hgroups⟩⟩

/-- A scan fills the free slots one by one from the characters with their full stops, and ignores the rest
(R104, R107). -/
theorem scanText_groupsText (g : Byte → Byte) {n : Nat} (hn : 1 ≤ n) {groups : List (Byte × Nat)} {out : List Byte}
    (hout : out.length ≤ n) (htail : ∀ p ∈ groups.tail, p.1 ≠ Config.fullStop)
    (hhead : out ≠ [] → ∀ p ∈ groups, p.1 ≠ Config.fullStop) :
    scanText g n (groupsText groups) out = out ++ (groups.take (n - out.length)).map fun p => slotMask g p.1 p.2 := by
  induction groups generalizing out with
  | nil => simp [groupsText, scanText_nil]
  | cons p groups ih =>
    rw [groupsText_cons]
    by_cases hfull : out.length = n
    · have hne : out ≠ [] := by
        rintro rfl
        exact absurd hfull.symm (by simp; omega)
      rw [List.cons_append, scanText_full g n (fun h => hhead hne p List.mem_cons_self h.1) hfull]
      simp [hfull]
    · rw [scanText_group p.2 _ (fun hne => hhead hne p List.mem_cons_self) (by omega),
        ih (by simp; omega) (fun q hq => htail q (List.mem_of_mem_tail hq)) (fun _ => htail)]
      rw [show n - out.length = (n - (out.length + 1)) + 1 by omega, List.take_succ_cons]
      simp

/-- The scan of a text given as characters with their full stops: the first n of them, one mask each. -/
theorem scanText_groupsText_nil (g : Byte → Byte) {n : Nat} (hn : 1 ≤ n) {groups : List (Byte × Nat)}
    (htail : ∀ p ∈ groups.tail, p.1 ≠ Config.fullStop) :
    scanText g n (groupsText groups) [] = (groups.take n).map fun p => slotMask g p.1 p.2 :=
  scanText_groupsText g hn (Nat.zero_le n) htail fun h => absurd rfl h

/-- Slot j of ENCODE_TEXT holds character j with its full stops, or is blank behind the text. -/
theorem getElem?_encodeTextWith_groupsText (g : Byte → Byte) {groups : List (Byte × Nat)}
    (htail : ∀ p ∈ groups.tail, p.1 ≠ Config.fullStop) {n j : Nat} (hj : j < n) :
    (encodeTextWith g (groupsText groups) n)[j]? =
      some ((groups[j]?.map fun p => slotMask g p.1 p.2).getD 0xFF#8) := by
  rw [encodeTextWith_eq_padded, scanText_groupsText_nil g (by omega) htail, getElem?_padded hj]
  simp [hj]

/-- Settles O51, from the slots of a text given as characters with their full stops. -/
theorem encodeTextPlacesEachCharacter : Obligations.EncodeTextPlacesEachCharacter := by
  intro g groups n _ htail j hj
  refine (getElem?_encodeTextWith_groupsText g htail hj).trans ?_
  cases groups[j]? <;> rfl

/-- Slot 0 of a text that is not empty is its first character's, with the full stops behind it. -/
theorem getElem?_zero_encodeTextWith_groupsText (g : Byte → Byte) (c : Byte) (k : Nat) {groups : List (Byte × Nat)}
    (hgroups : ∀ p ∈ groups, p.1 ≠ Config.fullStop) {n : Nat} (hn : 1 ≤ n) :
    (encodeTextWith g (groupsText ((c, k) :: groups)) n)[0]? = some (slotMask g c k) :=
  getElem?_encodeTextWith_groupsText g (groups := (c, k) :: groups) hgroups hn

/-- Settles O15: a leading full stop is the first character, with no full stop behind it, none, and one. -/
theorem leadingFullStopTakesASlot : Obligations.LeadingFullStopTakesASlot := by
  intro g c text n hn
  refine ⟨fun hc => ?_, ?_, ?_⟩
  · obtain ⟨k, groups, htext, hgroups⟩ := exists_groupsText c text
    rw [htext]
    exact getElem?_zero_encodeTextWith_groupsText g 0x2E#8 0 (groups := (c, k) :: groups)
      (List.forall_mem_cons.2 ⟨hc, hgroups⟩) hn
  · exact getElem?_zero_encodeTextWith_groupsText g 0x2E#8 0 (groups := []) (by simp) hn
  · exact getElem?_zero_encodeTextWith_groupsText g 0x2E#8 1 (groups := []) (by simp) hn

/-- Settles O16: the two texts are scanned alike. -/
theorem repeatedFullStopsActAsOne : Obligations.RepeatedFullStopsActAsOne := by
  intro g before after n _ hbefore
  rw [encodeTextWith_eq_padded, encodeTextWith_eq_padded]
  exact congrArg (padded n) (scanText_append_fullStops before after (.inl hbefore))

/-- A text without full stops is characters with none behind them. -/
theorem groupsText_map_zero (text : List Byte) : groupsText (text.map fun c => (c, 0)) = text := by
  simp [groupsText, List.flatMap_map]

/-- ENCODE_TEXT gives exactly n masks (R110). -/
theorem length_encodeTextWith (g : Byte → Byte) (text : List Byte) (n : Nat) : (encodeTextWith g text n).length = n := by
  have hle := length_scanText_le g n text (out := []) (Nat.zero_le n)
  rw [encodeTextWith_eq, List.length_append, List.length_replicate]
  omega

/-- The scan of a text that is not empty emits a mask. -/
theorem scanText_ne_nil (g : Byte → Byte) {n : Nat} (hn : 1 ≤ n) {text : List Byte} (h : text ≠ []) :
    scanText g n text [] ≠ [] := by
  obtain ⟨c, text, rfl⟩ := List.exists_cons_of_ne_nil h
  obtain ⟨k, groups, htext, hgroups⟩ := exists_groupsText c text
  rw [htext, scanText_groupsText_nil g hn (groups := (c, k) :: groups) hgroups]
  simp
  omega

/-- Settles O14: the count by the padding; the slots of a text without full stops; and a full stop behind a text, which
merges into the last mask or is ignored, where slot n stands for none. -/
theorem encodeTextFillsItsSlots : Obligations.EncodeTextFillsItsSlots := by
  intro g text n hn
  refine ⟨length_encodeTextWith g text n, fun hplain j hj => ?_, fun htext => ?_⟩
  · have hslot := getElem?_encodeTextWith_groupsText g (groups := text.map fun c => (c, 0))
      (fun p hp => by
        obtain ⟨c, hc, rfl⟩ := List.mem_map.1 (List.mem_of_mem_tail hp)
        exact hplain c hc) hj
    rw [groupsText_map_zero] at hslot
    rw [hslot, List.getD_eq_getElem?_getD, List.getElem?_map, List.getElem?_map, Option.map_map]
    rfl
  · rw [encodeTextWith_eq_padded, encodeTextWith_eq_padded]
    rcases scanText_append_fullStop (g := g) (n := n) text (out := []) (.inl htext) with hmerged | hignored
    · refine ⟨(scanText g n text []).length - 1, fun j hj => ?_⟩
      exact (congrArg (fun out => (padded n out)[j]?) hmerged).trans
        (getElem?_padded_mergePoint hj (scanText_ne_nil g hn htext))
    · refine ⟨n, fun j hj => (congrArg (fun out => (padded n out)[j]?) hignored).trans ?_⟩
      have hne : j ≠ n := Nat.ne_of_lt hj
      simp [hne]

/-- Characters that are not full stops fill the slots up to n one by one. -/
theorem scanText_plain (g : Byte → Byte) {n : Nat} {full : List Byte} (hplain : ∀ x ∈ full, x ≠ Config.fullStop)
    (rest : List Byte) {out : List Byte} (hn : out.length + full.length ≤ n) :
    scanText g n (full ++ rest) out = scanText g n rest (out ++ full.map (encodeWith g)) := by
  induction full generalizing out with
  | nil => simp
  | cons c full ih =>
    simp only [List.length_cons] at hn
    rw [List.cons_append, scanText_slot g n (fun h => hplain c List.mem_cons_self h.1) (by omega),
      ih (fun x hx => hplain x (List.mem_cons_of_mem _ hx)) (by simp; omega)]
    simp

/-- Full stops behind a mask keep the number of masks, so with every slot filled the scan ends at the next character
that is none (R107). -/
theorem scanText_fullStops_full (g : Byte → Byte) {c : Byte} (hc : c ≠ Config.fullStop) (stops : Nat) (after : List Byte)
    {out : List Byte} (hout : 0 < out.length) :
    scanText g out.length (List.replicate stops Config.fullStop ++ c :: after) out =
      scanText g out.length (List.replicate stops Config.fullStop) out := by
  obtain ⟨ms, m, rfl⟩ := (List.eq_nil_or_concat out).resolve_left (List.length_pos_iff.1 hout)
  rw [List.concat_eq_append, scanText_replicate_fullStop, scanText_full g _ (fun h => hc h.1) (by simp)]
  have hend := scanText_replicate_fullStop (g := g) (n := (ms ++ [m]).length) stops [] ms m
  rw [List.append_nil] at hend
  exact hend.symm

/-- Settles O17: the n characters fill the slots, the full stops merge there, and the next character ends the scan. -/
theorem truncationIgnoresTheRest : Obligations.TruncationIgnoresTheRest := by
  intro g full after c stops hlen hplain hc
  have hscan : ∀ rest, scanText g full.length (full ++ rest) [] =
      scanText g full.length rest (full.map (encodeWith g)) := fun rest =>
    scanText_plain g hplain rest (by simp)
  have hmasks : full.length = (full.map (encodeWith g)).length := (List.length_map _).symm
  have hpos : 0 < (full.map (encodeWith g)).length := by omega
  refine ⟨?_, fun j hj => ?_⟩
  · rw [encodeTextWith_eq_padded, encodeTextWith_eq_padded, List.append_assoc, hscan, hscan]
    have hend := scanText_fullStops_full g hc stops after hpos
    rw [← hmasks] at hend
    exact congrArg (padded full.length) hend
  · have hplainscan : scanText g full.length full [] = full.map (encodeWith g) := by
      simpa [scanText_nil] using hscan []
    rw [encodeTextWith_eq_padded, encodeTextWith_eq_padded, hscan, hplainscan]
    have hmerge := getElem?_padded_mergePoint hj (List.length_pos_iff.1 hpos)
    rw [← hmasks] at hmerge
    exact (congrArg (fun out => (padded full.length out)[j]?) (scanText_fullStop g full.length hpos [])).trans hmerge

end Sys2Proof.Machine
end

section
/-! SUPPORT. The builder's bits by digit cycle and frame, the memory it leaves, and DECODE
(41_frame_builder.md R120 to R130). -/

namespace Sys2Proof.Machine

/-! ### The bits of a built line -/

/-- Both frames of a pair carry the same bit: the segment byte's in frames 0..15, then the digit selector's, each MSB
first (R78, R123). -/
theorem pairBit_half (line : LineBuffer) (d : DigitIndex) (f : Nat) :
    pairBit line d (f / 2) =
      if f < 16 then (line.get d).getLsbD (7 - f / 2) else decide (7 - (f / 2 - 8) = d.val) := by
  unfold pairBit
  rw [getLsbD_digitSel]
  by_cases hf : f < 16
  · rw [if_pos hf, if_pos (show f / 2 < 8 by omega)]
  · rw [if_neg hf, if_neg (show ¬f / 2 < 8 by omega)]

theorem isDataWord_wordAt (d : DigitIndex) {f : Nat} (hf : f < 34) : isDataWord (wordAt d f) = decide (f < 32) :=
  congrArg (fun f => decide (f < 32)) (frameOf_wordAt d.val hf)

theorem pairOf_wordAt (d : DigitIndex) {f : Nat} (hf : f < 34) : pairOf (wordAt d f) = f / 2 := by
  rw [pairOf, frameOf_wordAt _ hf]

section

variable {lb : LineBuffers} {lines : List LineIndex} {l : LineIndex}

/-- The bit a built line carries in a data frame (R126). -/
theorem getLsbD_buildLines_wordAt (h : l ∈ lines) (m : Memory) (d : DigitIndex) {f : Nat} (hf : f < 32) :
    (Memory.readWord (buildLines lb lines m) (wordAt d f)).getLsbD (lineBit l) = pairBit (lb.get l) d (f / 2) := by
  have hf' : f < 34 := by omega
  have hframe := frameOf_wordAt d.val hf'
  rw [frameOf_eq] at hframe
  rw [getLsbD_buildLines_of_mem h m (wordAt_lt d hf') (by omega), cycleOf_wordAt d hf', pairOf_wordAt d hf']
  rfl

/-- The guard frames of a digit cycle are left alone (R126). -/
theorem readWord_buildLines_wordAt_of_guard (m : Memory) (d : DigitIndex) {f : Nat} (hf : 32 ≤ f) (hf' : f < 34) :
    Memory.readWord (buildLines lb lines m) (wordAt d f) = Memory.readWord m (wordAt d f) := by
  have hframe := frameOf_wordAt d.val hf'
  rw [frameOf_eq] at hframe
  exact readWord_buildLines_of_guard lb lines m (by omega)

end

/-- BUILD_LINE bit by bit, over every word of BUF (R126). -/
theorem getLsbD_buildLine_wordAt (lb : LineBuffers) (l : LineIndex) (m : Memory) (d : DigitIndex) {f : Nat} (hf : f < 34)
    (i : Nat) :
    (Memory.readWord (buildLine lb l m) (wordAt d f)).getLsbD i =
      if f < 32 ∧ i = lineBit l then pairBit (lb.get l) d (f / 2) else (Memory.readWord m (wordAt d f)).getLsbD i := by
  by_cases hi : i = lineBit l
  · subst hi
    by_cases hdata : f < 32
    · rw [if_pos ⟨hdata, rfl⟩]
      exact getLsbD_buildLines_wordAt (List.mem_singleton_self l) m d hdata
    · rw [if_neg (fun h => hdata h.1)]
      exact congrArg (BitVec.getLsbD · _) (readWord_buildLines_wordAt_of_guard m d (by omega) hf)
  · rw [if_neg (fun h => hi h.2)]
    exact getLsbD_buildLines_of_ne (fun l' hl' => List.mem_singleton.1 hl' ▸ Ne.symm hi) m _

/-- Settles O18, by BUILD_LINE's bits; a byte beyond BUF is in no data word. -/
theorem buildLineWritesItsLineBits : Obligations.BuildLineWritesItsLineBits := by
  intro lb l m
  refine ⟨fun d f i hf => ?_, fun a ha => readByte_buildLines_of_not_data m (by omega)⟩
  refine (getLsbD_buildLine_wordAt lb l m d hf i).trans ?_
  rw [pairBit_half]
  rfl

/-! ### The memory that building leaves -/

/-- A built word depends on which lines are built, not on their order, and on those lines' cells alone (R127). -/
theorem buildWord_congr {lb lb' : LineBuffers} {lines lines' : List LineIndex} (hmem : ∀ l, l ∈ lines ↔ l ∈ lines')
    (hcells : ∀ l ∈ lines, lb.get l = lb'.get l) : buildWord lb lines = buildWord lb' lines' := by
  funext a w
  refine BitVec.eq_of_getLsbD_eq fun i _ => ?_
  by_cases hi : ∃ l ∈ lines, lineBit l = i
  · obtain ⟨l, hl, rfl⟩ := hi
    rw [getLsbD_buildWord_of_mem hl, getLsbD_buildWord_of_mem ((hmem l).1 hl), bitVal, bitVal, hcells l hl]
  · have hne : ∀ l ∈ lines, lineBit l ≠ i := fun l hl h => hi ⟨l, hl, h⟩
    rw [getLsbD_buildWord_of_ne hne, getLsbD_buildWord_of_ne fun l hl => hne l ((hmem l).2 hl)]

theorem buildLines_congr {lb lb' : LineBuffers} {lines lines' : List LineIndex} (hmem : ∀ l, l ∈ lines ↔ l ∈ lines')
    (hcells : ∀ l ∈ lines, lb.get l = lb'.get l) : buildLines lb lines = buildLines lb' lines' := by
  funext m
  rw [buildLines, buildLines, buildWord_congr hmem hcells]

/-- A word built in two goes is the word built in one. -/
theorem buildWord_append (lb : LineBuffers) (lines lines' : List LineIndex) (a : Nat) (w : Word) :
    buildWord lb (lines ++ lines') a w = buildWord lb lines' a (buildWord lb lines a w) :=
  List.foldl_append

/-- Lines built in two goes leave the memory that building them in one leaves (R129). -/
theorem buildLines_append (lb : LineBuffers) (lines lines' : List LineIndex) {m : Memory} (hm : Memory.wf m) :
    buildLines lb (lines ++ lines') m = buildLines lb lines' (buildLines lb lines m) := by
  refine memory_ext (wf_buildLines hm _ _) (wf_buildLines (wf_buildLines hm _ _) _ _) fun b => ?_
  rw [lookup_buildLines, lookup_buildLines, lookup_buildLines, readWord_buildLines]
  by_cases hdata : b / 4 ∈ dataWords
  · rw [if_pos hdata, if_pos hdata, if_pos (mem_dataWords.1 hdata), buildWord_append]
  · rw [if_neg hdata, if_neg hdata, if_neg hdata]

/-- Settles O19: the second build is of the same line, from cells that are the same on that line. -/
theorem buildLineIsIdempotent : Obligations.BuildLineIsIdempotent := by
  intro lb lb' l m hm hcells
  have hsame : buildLine lb' l = buildLine lb l :=
    buildLines_congr (fun _ => Iff.rfl) fun l' hl' => by rw [List.mem_singleton.1 hl', hcells]
  calc buildLine lb' l (buildLine lb l m)
      = buildLine lb l (buildLine lb l m) := by rw [hsame]
    _ = buildLines lb ([l] ++ [l]) m := (buildLines_append lb [l] [l] hm).symm
    _ = buildLine lb l m := congrFun (buildLines_congr (by simp) fun _ _ => rfl) m

/-- Settles O20: both orders build the same two lines. -/
theorem linesBuildInEitherOrder : Obligations.LinesBuildInEitherOrder := by
  intro lb l l' m hm
  calc buildLine lb l (buildLine lb l' m)
      = buildLines lb ([l'] ++ [l]) m := (buildLines_append lb [l'] [l] hm).symm
    _ = buildLines lb ([l] ++ [l']) m := congrFun (buildLines_congr (by simp [or_comm]) fun _ _ => rfl) m
    _ = buildLine lb l' (buildLine lb l m) := buildLines_append lb [l] [l'] hm

/-- Building some lines, at least one, is building them one after another (R129). -/
theorem buildLines_cons_eq_foldl (lb : LineBuffers) (l : LineIndex) (lines : List LineIndex) {m : Memory}
    (hm : Memory.wf m) : buildLines lb (l :: lines) m = (l :: lines).foldl (fun m l => buildLine lb l m) m := by
  induction lines generalizing l m with
  | nil => rfl
  | cons l' lines ih =>
    calc buildLines lb (l :: l' :: lines) m
        = buildLines lb (l' :: lines) (buildLine lb l m) := buildLines_append lb [l] (l' :: lines) hm
      _ = (l' :: lines).foldl (fun m l => buildLine lb l m) (buildLine lb l m) := ih l' (wf_buildLines hm lb [l])

/-- Settles O21, at the list of all twenty lines. -/
theorem buildAllBuildsEveryLineInTurn : Obligations.BuildAllBuildsEveryLineInTurn := by
  intro lb m hm
  exact buildLines_cons_eq_foldl lb 0 (List.finRange 20).tail hm

/-! ### DECODE -/

/-- DECODE_SEG and DECODE_SEL read their line's bits of their digit cycle's data frames only. -/
theorem decode_congr {m m' : Memory} {l : LineIndex} {d : DigitIndex}
    (h : ∀ f, f < 32 → (Memory.readWord m (wordAt d f)).getLsbD (lineBit l) =
      (Memory.readWord m' (wordAt d f)).getLsbD (lineBit l)) :
    decodeSeg m l d = decodeSeg m' l d ∧ decodeSel m l d = decodeSel m' l d := by
  refine ⟨BitVec.eq_of_getLsbD_eq fun i hi => ?_, BitVec.eq_of_getLsbD_eq fun i hi => ?_⟩
  · rw [getLsbD_decodeSeg _ _ _ hi, getLsbD_decodeSeg _ _ _ hi, h _ (by omega)]
  · rw [getLsbD_decodeSel _ _ _ hi, getLsbD_decodeSel _ _ _ hi, h _ (by omega)]

/-- Where the data frames carry a line's bits, DECODE_SEG gives back its segment bytes and DECODE_SEL the digit
selector (R130). -/
theorem decode_of_pairBits {m : Memory} {l : LineIndex} {d : DigitIndex} {line : LineBuffer}
    (h : ∀ f, f < 32 → (Memory.readWord m (wordAt d f)).getLsbD (lineBit l) = pairBit line d (f / 2)) :
    decodeSeg m l d = line.get d ∧ decodeSel m l d = 1#8 <<< d.val := by
  refine ⟨BitVec.eq_of_getLsbD_eq fun i hi => ?_, BitVec.eq_of_getLsbD_eq fun i hi => ?_⟩
  · rw [getLsbD_decodeSeg _ _ _ hi, h _ (by omega), pairBit_half, if_pos (by omega)]
    congr 1
    omega
  · have hsel : (1#8 <<< d.val).getLsbD i = decide (i = d.val) := getLsbD_digitSel d i
    rw [getLsbD_decodeSel _ _ _ hi, h _ (by omega), pairBit_half, if_neg (by omega), hsel]
    congr 2
    omega

/-- Every bit of 0xFF is 1. -/
theorem getLsbD_allOnes_byte {i : Nat} (hi : i < 8) : (0xFF#8).getLsbD i = true := by
  have h : ∀ j : Fin 8, (0xFF#8).getLsbD j = true := by decide
  exact h ⟨i, hi⟩

/-- A cold line decodes to 0xFF everywhere (R130). -/
theorem decode_of_lineCold {m : Memory} {l : LineIndex} (h : LineCold m l) (d : DigitIndex) :
    decodeSeg m l d = 0xFF#8 ∧ decodeSel m l d = 0xFF#8 := by
  refine ⟨BitVec.eq_of_getLsbD_eq fun i hi => ?_, BitVec.eq_of_getLsbD_eq fun i hi => ?_⟩
  · rw [getLsbD_decodeSeg _ _ _ hi, h _ (wordAt_lt d (by omega)), getLsbD_allOnes_byte hi]
  · rw [getLsbD_decodeSel _ _ _ hi, h _ (wordAt_lt d (by omega)), getLsbD_allOnes_byte hi]

/-- After a build, a built line decodes to its cells and the digit selectors. -/
theorem decode_buildLines {lb : LineBuffers} {lines : List LineIndex} {l : LineIndex} (h : l ∈ lines) (m : Memory)
    (d : DigitIndex) :
    decodeSeg (buildLines lb lines m) l d = LineBuffers.cell lb l d ∧
      decodeSel (buildLines lb lines m) l d = 1#8 <<< d.val :=
  decode_of_pairBits fun _ hf => getLsbD_buildLines_wordAt h m d hf

/-- Settles O22, from the bits BUILD_LINE writes; the two frames of pair k are frames 2k and 2k+1. -/
theorem decodeInvertsBuildLine : Obligations.DecodeInvertsBuildLine := by
  intro lb l m d
  have hl : l ∈ [l] := List.mem_singleton_self l
  obtain ⟨hseg, hsel⟩ := decode_buildLines (lb := lb) hl m d
  refine ⟨hseg, hsel, fun k hk => ?_, fun hcold => decode_of_lineCold hcold d⟩
  have heven := getLsbD_buildLines_wordAt (lb := lb) hl m d (f := 2 * k) (by omega)
  have hodd := getLsbD_buildLines_wordAt (lb := lb) hl m d (f := 2 * k + 1) (by omega)
  rw [show (2 * k + 1) / 2 = 2 * k / 2 by omega] at hodd
  exact heven.trans hodd.symm

end Sys2Proof.Machine
end

section
/-! SUPPORT. What DISPLAY_TEXT, SET and FLUSH write, what BUF shows after them, and what they leave
(10_state.md R38; 42_controller_commands.md R145 to R149). -/

namespace Sys2Proof.Machine

/-! ### The cells and the bits a command writes -/

/-- DISPLAY_TEXT's cells: the masks of the text on its line, the others as they were (R145). -/
theorem cell_textShown (s : State) (line : LineIndex) (text : List Byte) (l : LineIndex) (d : DigitIndex) :
    LineBuffers.cell (s.textShown line text).lb l d =
      if l = line then (encodeTextWith Config.glyph text 8).getD d 0xFF#8 else LineBuffers.cell s.lb l d := by
  rw [State.textShown_lb, cell_setLine, get_encodeLine]
  rfl

/-- SET's cells: ENCODE of the character in its cell, the others as they were (R146). -/
theorem cell_cellSet (s : State) (line : LineIndex) (digit : DigitIndex) (char : Byte) (l : LineIndex) (d : DigitIndex) :
    LineBuffers.cell (s.cellSet line digit char).lb l d =
      if l = line ∧ d = digit then encodeWith Config.glyph char else LineBuffers.cell s.lb l d :=
  cell_setCell ..

/-- Settles O30: the cells, the built line's bits and the bytes outside the data words; the rest of the state is the old
one by definition. -/
theorem displayTextRewritesItsLine : Obligations.DisplayTextRewritesItsLine := by
  intro s line text hgood
  rw [exec_displayText_of_good hgood (lineInRange_coe line), toLine_coe, ← raiseFault_protocol_of_good hgood]
  refine ⟨fun hlife => ⟨s.textShown line text, by rw [if_neg hlife], cell_textShown s line text, fun d f i hf => ?_,
    fun b hb => readByte_buildLines_of_not_data _ hb, rfl⟩, fun hlife => by rw [if_pos hlife],
    fun far hfar => command_of_line (lineInRange_eq_false_iff.2 hfar)⟩
  refine (getLsbD_buildLine_wordAt _ line s.mem d hf i).trans ?_
  rw [pairBit_half]
  rfl

/-- Settles O31: the one cell; the rest of the state is the old one by definition. -/
theorem setWritesOneCell : Obligations.SetWritesOneCell := by
  intro s line digit char hgood
  rw [exec_set_of_good hgood (lineInRange_coe line) (digitInRange_coe digit), toLine_coe, toDigit_coe,
    ← raiseFault_protocol_of_good hgood]
  exact ⟨fun hlife => ⟨s.cellSet line digit char, by rw [if_neg hlife], cell_cellSet s line digit char, fun _ => rfl, rfl⟩,
    fun hlife => by rw [if_pos hlife],
    fun far any => ⟨fun hfar => command_of_line (lineInRange_eq_false_iff.2 hfar),
      fun hfar => command_of_digit (digitInRange_eq_false_iff.2 hfar)⟩⟩

/-- The bit FLUSH writes for a line in a data frame (R147). -/
theorem getLsbD_flushed (s : State) (l : LineIndex) (d : DigitIndex) {f : Nat} (hf : f < 32) :
    (Memory.readWord s.flushed.mem (wordAt d f)).getLsbD (lineBit l) = pairBit (s.lb.get l) d (f / 2) :=
  getLsbD_buildLines_wordAt (mem_allLines l) s.mem d hf

/-- Settles O32: every line's bits, the bits that are no line's, and the bytes outside the data words; the rest of the
state is the old one by definition. -/
theorem flushRebuildsEveryLine : Obligations.FlushRebuildsEveryLine := by
  intro s hgood
  rw [exec_flush_of_good hgood, ← raiseFault_protocol_of_good hgood]
  refine ⟨fun hlife => ⟨s.flushed, by rw [if_neg hlife], fun d f hf => ⟨fun l => ?_, fun i hi => ?_⟩,
    fun b hb => readByte_buildLines_of_not_data _ hb, rfl⟩, fun hlife => by rw [if_pos hlife]⟩
  · exact (getLsbD_flushed s l d hf).trans (pairBit_half _ d f)
  · exact getLsbD_buildLines_of_ne (fun l _ => lineBit_ne_of_control hi l) s.mem _

/-! ### What BUF shows -/

/-- After DISPLAY_TEXT, BUF shows its line's cells. -/
theorem lineShown_textShown (s : State) (line : LineIndex) (text : List Byte) : LineShown (s.textShown line text) line :=
  fun d => (decode_buildLines (List.mem_singleton_self line) s.mem d).1

/-- After FLUSH, BUF shows every line's cells. -/
theorem lineShown_flushed (s : State) (l : LineIndex) : LineShown s.flushed l :=
  fun d => (decode_buildLines (mem_allLines l) s.mem d).1

/-- DISPLAY_TEXT leaves every bit that is not its line's, in every word (R127). -/
theorem getLsbD_textShown_of_ne_lineBit (s : State) {line : LineIndex} {i : Nat} (hi : i ≠ lineBit line)
    (text : List Byte) (a : Nat) :
    (Memory.readWord (s.textShown line text).mem a).getLsbD i = (Memory.readWord s.mem a).getLsbD i :=
  getLsbD_buildLines_of_ne (fun _ hl h => hi (h.symm.trans (congrArg lineBit (List.mem_singleton.1 hl)))) s.mem a

/-- DISPLAY_TEXT leaves every other line's bit of every word. -/
theorem getLsbD_textShown_of_ne (s : State) {line l : LineIndex} (hl : l ≠ line) (text : List Byte) (a : Nat) :
    (Memory.readWord (s.textShown line text).mem a).getLsbD (lineBit l) = (Memory.readWord s.mem a).getLsbD (lineBit l) :=
  getLsbD_textShown_of_ne_lineBit s (fun h => hl (lineBit_injective h)) text a

/-- A line stays shown where its bits of BUF and its cells stay. -/
theorem LineShown.congr {s t : State} {l : LineIndex} (h : LineShown s l)
    (hbits : ∀ a, (Memory.readWord t.mem a).getLsbD (lineBit l) = (Memory.readWord s.mem a).getLsbD (lineBit l))
    (hcells : ∀ d, LineBuffers.cell t.lb l d = LineBuffers.cell s.lb l d) : LineShown t l := by
  intro d
  rw [hcells d, ← h d]
  exact (decode_congr fun f _ => hbits (wordAt d f)).1

/-- DISPLAY_TEXT on another line keeps a line shown. -/
theorem lineShown_textShown_of_ne {s : State} {line l : LineIndex} (h : LineShown s l) (hl : l ≠ line)
    (text : List Byte) : LineShown (s.textShown line text) l :=
  h.congr (getLsbD_textShown_of_ne s hl text) fun d => by rw [cell_textShown, if_neg hl]

/-- SET on another line keeps a line shown. -/
theorem lineShown_cellSet_of_ne {s : State} {line l : LineIndex} (h : LineShown s l) (hl : l ≠ line)
    (digit : DigitIndex) (char : Byte) : LineShown (s.cellSet line digit char) l :=
  h.congr (fun _ => rfl) fun d => by rw [cell_cellSet, if_neg (fun hc => hl hc.1)]

/-- An effect keeps a line shown, but for CONFIGURE's and a SET's on it. -/
theorem LineShown.effect {i : Instr} {s t : State} {l : LineIndex} (h : LineShown s l) (he : Effect i s t)
    (hconfigure : i ≠ .configure) (hset : ∀ digit char, i ≠ .set l.val digit char) : LineShown t l := by
  cases he with
  | configure => exact absurd rfl hconfigure
  | start => exact h
  | stop => exact h
  | @displayText s line text h0 h1 =>
    by_cases hl : l = toLine line
    · subst hl
      exact lineShown_textShown s _ text
    · exact lineShown_textShown_of_ne h hl text
  | @set s line digit char h0 h1 =>
    refine lineShown_cellSet_of_ne h (fun hl => hset digit char ?_) _ char
    rw [hl, toLine_val h0 h1]
  | flush => exact lineShown_flushed _ l
  | tick => exact h

/-- Settles O36: the state as it was and the FAULT outcome keep BUF and LB; the effects one by one; and in a good block,
once configured, FLUSH and DISPLAY_TEXT have their effect. -/
theorem shownLinesStayShown : Obligations.ShownLinesStayShown := by
  intro i s t l hexec
  refine ⟨fun hshown hconfigure hset => ?_, fun hgood hlife hshows => ?_⟩
  · rcases exec_cases hexec with rfl | ⟨-, -, rfl⟩ | ⟨-, heffect⟩
    · exact hshown
    · exact hshown
    · exact hshown.effect heffect hconfigure hset
  · rcases hshows with rfl | ⟨text, rfl⟩
    · rw [exec_flush_of_good hgood, if_neg hlife] at hexec
      cases hexec
      exact lineShown_flushed s l
    · rw [exec_displayText_of_good hgood (lineInRange_coe l), if_neg hlife, toLine_coe] at hexec
      cases hexec
      exact lineShown_textShown s l text

/-! ### The empty text, the same text twice, and SET with FLUSH (R149) -/

/-- The empty text gives blanks only. -/
theorem getD_encodeTextWith_nil (g : Byte → Byte) (n : Nat) (j : Nat) : (encodeTextWith g [] n).getD j 0xFF#8 = 0xFF#8 := by
  rw [encodeTextWith_eq_padded, List.getD_eq_getElem?_getD]
  by_cases hj : j < n
  · rw [getElem?_padded hj]
    rfl
  · rw [List.getElem?_eq_none (by simp [padded, scanText_nil]; omega)]
    rfl

/-- Settles O33: the cells of the empty text, shown by BUF; the other lines' cells and bits stay. -/
theorem emptyTextBlanksItsLineOnly : Obligations.EmptyTextBlanksItsLineOnly := by
  intro s t line hgood hlife hexec
  rw [exec_displayText_of_good hgood (lineInRange_coe line), if_neg hlife, toLine_coe] at hexec
  cases hexec
  refine ⟨fun d => ?_, fun l hl => ⟨fun d => ?_, getLsbD_textShown_of_ne s hl []⟩⟩
  · have hcell : LineBuffers.cell (s.textShown line []).lb line d = 0xFF#8 := by
      rw [cell_textShown, if_pos rfl, getD_encodeTextWith_nil]
    exact ⟨hcell, (lineShown_textShown s line [] d).trans hcell⟩
  · rw [cell_textShown, if_neg hl]

theorem setLine_setLine (lb : LineBuffers) (l : LineIndex) (m m' : LineBuffer) :
    LineBuffers.setLine (LineBuffers.setLine lb l m) l m' = LineBuffers.setLine lb l m' := by
  simp [LineBuffers.setLine]

/-- The same text shown twice leaves the cells and the memory of once. -/
theorem textShown_textShown {s : State} (hm : Memory.wf s.mem) (l : LineIndex) (text : List Byte) :
    ((s.textShown l text).textShown l text).mem = (s.textShown l text).mem ∧
      ((s.textShown l text).textShown l text).lb = (s.textShown l text).lb := by
  refine ⟨?_, setLine_setLine ..⟩
  rw [State.textShown_mem, State.textShown_mem, State.textShown_lb, setLine_setLine]
  exact buildLineIsIdempotent _ _ l s.mem hm rfl

/-- Settles O34: where the first has no effect the second is the same again, and where it has one so has the second. -/
theorem sameTextTwiceIsRepeatable : Obligations.SameTextTwiceIsRepeatable := by
  intro s t u line text hm ht hu
  rcases exec_cases ht with rfl | ⟨-, hcommand, rfl⟩ | ⟨hgood, heffect⟩
  · cases ht.symm.trans hu
    exact ⟨rfl, rfl⟩
  · cases (exec_of_fault rfl hcommand).symm.trans hu
    exact ⟨rfl, rfl⟩
  · cases heffect with
    | displayText h0 h1 hlife =>
      have hagain : exec (.displayText line text) (s.textShown (toLine line) text) = _ :=
        exec_of_effect hgood (.displayText h0 h1 hlife)
      cases hagain.symm.trans hu
      exact textShown_textShown hm (toLine line) text

/-- Every data frame of a cold or built line carries the bit of its pair's clock frame (R78). -/
theorem getLsbD_frame_eq_clockFrame {m : Memory} {l : LineIndex} (h : LineColdOrBuilt m l) (d : DigitIndex) {f : Nat}
    (hf : f < 32) :
    (Memory.readWord m (wordAt d f)).getLsbD (lineBit l) =
      (Memory.readWord m (wordAt d (2 * (f / 2) + 1))).getLsbD (lineBit l) := by
  have hframe := frameOf_wordAt d.val (f := f) (by omega)
  rw [frameOf_eq] at hframe
  have hlt := wordAt_lt d (f := f + 1) (by omega)
  rcases Nat.mod_two_eq_zero_or_one f with heven | hodd
  · rw [show 2 * (f / 2) + 1 = f + 1 by omega]
    exact pair_eq_of_lineColdOrBuilt h hlt (by omega) (by omega)
  · rw [show 2 * (f / 2) + 1 = f by omega]

/-- In the segment frames of a cold or built line BUF carries what DECODE_SEG gives (R78, R130). -/
theorem getLsbD_segFrame {m : Memory} {l : LineIndex} (h : LineColdOrBuilt m l) (d : DigitIndex) {f : Nat}
    (hf : f < 16) :
    (Memory.readWord m (wordAt d f)).getLsbD (lineBit l) = (decodeSeg m l d).getLsbD (7 - f / 2) := by
  rw [getLsbD_frame_eq_clockFrame h d (by omega), getLsbD_decodeSeg m l d (by omega),
    show 7 - (7 - f / 2) = f / 2 by omega]

/-- A built line carries its cells and the digit selector in the data frames, and ones in the guard frames (R38). -/
theorem getLsbD_frame_of_lineBuilt {m : Memory} {l : LineIndex} {line : LineBuffer} (h : LineBuilt m l line)
    (d : DigitIndex) {f : Nat} (hf : f < 34) :
    (Memory.readWord m (wordAt d f)).getLsbD (lineBit l) = if f < 32 then pairBit line d (f / 2) else true := by
  rw [h _ (wordAt_lt d hf), isDataWord_wordAt d hf, cycleOf_wordAt d hf, pairOf_wordAt d hf]
  simp

/-- FLUSH leaves the digit-select and guard frames of a built line bit for bit. -/
theorem getLsbD_flushed_of_lineBuilt {s : State} {l : LineIndex} {line : LineBuffer} (h : LineBuilt s.mem l line)
    (d : DigitIndex) {f : Nat} (hf : 16 ≤ f) (hf' : f < 34) :
    (Memory.readWord s.flushed.mem (wordAt d f)).getLsbD (lineBit l) =
      (Memory.readWord s.mem (wordAt d f)).getLsbD (lineBit l) := by
  by_cases hdata : f < 32
  · rw [getLsbD_flushed s l d hdata, getLsbD_frame_of_lineBuilt h d hf', if_pos hdata, pairBit_half, pairBit_half,
      if_neg (by omega), if_neg (by omega)]
  · rw [State.flushed_mem, buildAll, readWord_buildLines_wordAt_of_guard s.mem d (by omega) hf']

/-- FLUSH writes in the segment frames what the cells hold. -/
theorem getLsbD_flushed_segFrame (s : State) (l : LineIndex) (d : DigitIndex) {f : Nat} (hf : f < 16) :
    (Memory.readWord s.flushed.mem (wordAt d f)).getLsbD (lineBit l) =
      (LineBuffers.cell s.lb l d).getLsbD (7 - f / 2) := by
  rw [getLsbD_flushed s l d (by omega), pairBit_half, if_pos hf]
  rfl

/-- Settles O35: FLUSH shows the cells SET left; a bit it writes in a segment frame is its cell's, which BUF showed
before unless it is SET's, and a built line's other frames stay. -/
theorem setThenFlushShowsOneNewCell : Obligations.SetThenFlushShowsOneNewCell := by
  intro s t u line digit char hgood hlife hshown ht hu
  rw [exec_set_of_good hgood (lineInRange_coe line) (digitInRange_coe digit), if_neg hlife, toLine_coe, toDigit_coe] at ht
  cases ht
  rw [exec_flush_of_good (s := s.cellSet line digit char) hgood, if_neg (by exact hlife)] at hu
  cases hu
  have hcell := cell_cellSet s line digit char
  refine ⟨fun l d => ?_, hcell, fun l d f hl hf hother => ?_, fun l shown hbuilt d f hf hf' => ?_⟩
  · rw [lineShown_flushed _ l d, hshown l d]
    exact hcell l d
  · refine (getLsbD_flushed_segFrame (s.cellSet line digit char) l d hf).trans ?_
    rw [hcell l d, if_neg hother, ← hshown l d]
    exact (getLsbD_segFrame hl d hf).symm
  · exact getLsbD_flushed_of_lineBuilt (s := s.cellSet line digit char) hbuilt d hf hf'

end Sys2Proof.Machine
end

section
/-! SUPPORT. TICK by TICK: the word emitted, racing or not, the run of an idle port, and the edges of CLK and LATCH
(20_memory.md R58, R59; 43_replay_engine.md R170 to R175, R179). -/

namespace Sys2Proof.Machine

/-! ### One TICK -/

/-- Settles O37: TICK's effect while Running, idle otherwise. -/
theorem tickEmitsTheNextWord : Obligations.TickEmitsTheNextWord := by
  intro s
  refine ⟨fun hrunning => ⟨s.ticked, exec_tick_of_running hrunning, ?_, fun hrace => ⟨sampledWord_of_no_race hrace, ?_⟩, rfl⟩,
    exec_tick_of_not_running⟩
  · have hlt := s.rp.isLt
    rw [State.ticked_rp, nextWord_val]
    split <;> omega
  · rw [State.ticked_draws, hrace]
    rfl

/-- Settles O38, from the bits of a racing read; each racing read uses one draw. -/
theorem racingTickReadsOldOrNewBits : Obligations.RacingTickReadsOldOrNewBits := by
  intro s old hrunning hrace
  have hout : s.ticked.out = _ := sampledWord_of_race hrace
  have hdraws : s.ticked.draws = s.draws + 1 := by rw [State.ticked_draws, hrace]; rfl
  refine ⟨s.ticked, exec_tick_of_running hrunning, fun l => ?_, fun i hi => ?_, nextWord_val s.rp, ?_⟩
  · rw [hout]
    exact getLsbD_raceWord_or ..
  · rw [hout]
    exact getLsbD_raceWord_of_not_line _ _ _ (by omega)
  · rw [← hdraws]
    rfl

/-- Settles O39: the racing read is of the old and the new BUF, which agree but on the line's bit; once the race has
ended it is of the new one. -/
theorem racingTextTouchesOnlyItsLine : Obligations.RacingTextTouchesOnlyItsLine := by
  intro s t u v line text hgood hrunning ht hu hv
  rw [exec_displayText_of_good hgood (lineInRange_coe line), if_neg (by simp [hrunning]), toLine_coe] at ht
  cases ht
  rw [exec_tick_of_running (by exact hrunning)] at hu hv
  cases hu
  cases hv
  have hrace : (s.textShown line text).race = some s.mem := if_pos hrunning
  have hout : (s.textShown line text).ticked.out = _ := sampledWord_of_race hrace
  refine ⟨fun i hi => ?_, ?_, sampledWord_of_no_race (s := { s.textShown line text with race := none }) rfl⟩
  · rw [hout]
    rcases getLsbD_raceWord_or _ _ _ i with h | h
    · exact h
    · exact h.trans (getLsbD_textShown_of_ne_lineBit s hi text _)
  · rw [hout]
    exact getLsbD_raceWord_or ..

/-! ### Runs of TICKs -/

/-- Settles O40: the last TICK of n + 1 samples the word n words on, of a BUF no TICK writes. -/
theorem replayEmitsTheBufferCyclically : Obligations.ReplayEmitsTheBufferCyclically := by
  intro s n hrunning hrace
  obtain ⟨hlife, hmem, hlb, hsrace, -⟩ := tickTimes_frame n s
  refine ⟨?_, tickTimes_rp n s, hmem, hlb, hlife.trans hrunning⟩
  rw [tickTimes_add n 1, tickTimes_succ, tickTimes_zero, State.ticked_out, sampledWord_of_no_race (hsrace.trans hrace),
    hmem, tickTimes_rp]

/-- With an empty port, no turn and no race, a Running block's step is a TICK (log entry 3). -/
theorem step_of_idle_port {s : State} (hrunning : s.life = .running) (hrace : s.race = none) (hport : s.port = [])
    (hturns : s.turns = []) : step s = .next s.ticked := by
  have hsame : ({ s with race := none } : State) = s := by rw [← hrace]
  rw [step_of_run (nextMove_of_not_waiting hturns (by rw [hport]; rfl)), hsame, exec_tick_of_running hrunning]

/-- Settles O41, by induction on the number of steps: a TICK keeps LIFE, the race, the port and the turns. -/
theorem idlePortLeavesTheReplayRunning : Obligations.IdlePortLeavesTheReplayRunning := by
  intro s n
  induction n generalizing s with
  | zero => exact fun _ _ _ _ => rfl
  | succ n ih =>
    intro hrunning hrace hport hturns
    exact (run_succ (M := core) (step_of_idle_port hrunning hrace hport hturns)).trans
      (ih s.ticked hrunning hrace hport hturns)

/-! ### Edges -/

section framed

variable {a : Nat} {w : Word} (h : WordFramed a w)
include h

/-- CLK of a framed word, by its frame. -/
theorem WordFramed.getLsbD_clk : w.getLsbD Config.clkBit = decide (a % 34 < 32 ∧ a % 34 % 2 = 1) :=
  h.clk.trans (getLsbD_ctrl_clk _)

/-- LATCH of a framed word, by its frame. -/
theorem WordFramed.getLsbD_latch : w.getLsbD Config.latchBit = decide (33 ≤ a % 34) :=
  h.latch.trans (getLsbD_ctrl_latch _)

end framed

/-- A rising edge needs the level to be high in the second word. -/
theorem clkRises_of_low {cur : Word} (h : cur.getLsbD Config.clkBit = false) (prev : Word) : clkRises prev cur = false := by
  rw [clkRises, h, Bool.and_false]

theorem latchRises_of_low {cur : Word} (h : cur.getLsbD Config.latchBit = false) (prev : Word) :
    latchRises prev cur = false := by
  rw [latchRises, h, Bool.and_false]

/-- CLK rises into the odd data frames (R175). -/
theorem clkRises_of_framed {a b : Nat} {prev cur : Word} (hprev : WordFramed a prev) (hcur : WordFramed b cur)
    (hab : b % 34 = (a + 1) % 34) : clkRises prev cur = decide (a % 34 < 32 ∧ a % 34 % 2 = 0) := by
  rw [clkRises, hprev.getLsbD_clk, hcur.getLsbD_clk, Bool.eq_iff_iff]
  simp only [Bool.and_eq_true, Bool.not_eq_true', decide_eq_true_eq, decide_eq_false_iff_not]
  omega

/-- LATCH rises into the second guard frame (R175). -/
theorem latchRises_of_framed {a b : Nat} {prev cur : Word} (hprev : WordFramed a prev) (hcur : WordFramed b cur)
    (hab : b % 34 = (a + 1) % 34) : latchRises prev cur = decide (a % 34 = 32) := by
  rw [latchRises, hprev.getLsbD_latch, hcur.getLsbD_latch, Bool.eq_iff_iff]
  simp only [Bool.and_eq_true, Bool.not_eq_true', decide_eq_true_eq, decide_eq_false_iff_not]
  omega

/-- Settles O42: two words in a row are framed as their frames say, and a pair carries one bit of a cold or built line. -/
theorem edgesFallWhereTheLayoutSays : Obligations.EdgesFallWhereTheLayoutSays := by
  intro m a hframed ha prev cur
  have hprev : WordFramed a prev := hframed a ha
  have hcur : WordFramed ((a + 1) % 272) cur := hframed _ (Nat.mod_lt _ (by decide))
  have hab : (a + 1) % 272 % 34 = (a + 1) % 34 := by omega
  have hclk := clkRises_of_framed hprev hcur hab
  refine ⟨hclk, latchRises_of_framed hprev hcur hab, hcur.not_clk_and_latch, fun hguard => ?_, fun l hl hrise => ?_⟩
  · refine ⟨hprev.getLsbD_latch.trans ?_, hcur.getLsbD_latch.trans ?_, hprev.getLsbD_clk.trans ?_,
      hcur.getLsbD_clk.trans ?_⟩
    · exact decide_eq_true (by omega)
    · exact decide_eq_false (by omega)
    · exact decide_eq_false (by omega)
    · exact decide_eq_false (by omega)
  · rw [hclk, decide_eq_true_eq] at hrise
    have hcureq : cur = Memory.readWord m (a + 1) := by
      show Memory.readWord m ((a + 1) % 272) = _
      rw [Nat.mod_eq_of_lt (by omega)]
    rw [hcureq]
    exact pair_eq_of_lineColdOrBuilt hl (by omega) hrise.1 hrise.2

/-- Settles O44: START puts RP on word 0, whose frame has CLK and LATCH low, racing or not. -/
theorem startMakesNoSpuriousEdge : Obligations.StartMakesNoSpuriousEdge := by
  intro s t u hinv hgood hlife ht hu
  rw [exec_start_of_good hgood, if_neg hlife] at ht
  cases ht
  cases (exec_tick_of_running (s := s.started) rfl).symm.trans hu
  have hframed : WordFramed 0 s.started.sampledWord :=
    wordFramed_sampledWord (s := s.started) (hinv.buffer.framed hlife) fun old hold => (hinv.buffer.race old hold).2.2
  have hclk : s.started.ticked.out.getLsbD 0 = false := hframed.getLsbD_clk
  have hlatch : s.started.ticked.out.getLsbD 1 = false := hframed.getLsbD_latch
  exact ⟨rfl, hclk, hlatch, clkRises_of_low hclk _, latchRises_of_low hlatch _⟩

end Sys2Proof.Machine
end

section
/-! SUPPORT. The wire each pin carries under a valid pin map (43_replay_engine.md R172; 93_implementation_defined.md U7). -/

namespace Sys2Proof.Machine

section pins

variable {m : Config.PinMap}

/-- A pin of a connected line is a pin the map names. -/
theorem mem_linePins {l : LineIndex} {p : Config.Pin} (h : m.linePin.get l = some p) :
    p ∈ m.linePin.toList.filterMap id :=
  List.mem_filterMap.2 ⟨some p, Vector.mem_toList_iff.2 (h ▸ Vector.getElem_mem l.isLt), rfl⟩

/-- The wire of a pin that is neither CLK's nor LATCH's is its line's, found by the pin. -/
theorem signalAt_of_ne {p : Config.Pin} (hclk : p ≠ m.clkPin) (hlatch : p ≠ m.latchPin) :
    signalAt m p = (allLines.find? fun l => m.linePin.get l == some p).map .data := by
  rw [signalAt, if_neg hclk, if_neg hlatch]

theorem signalAt_clkPin : signalAt m m.clkPin = some .clk := if_pos rfl

section valid

variable (hvalid : m.valid = true)
include hvalid

/-- In a valid map CLK's pin is not LATCH's, neither is a line's, and no pin is two lines' (U7). -/
theorem pins_nodup : m.clkPin ≠ m.latchPin ∧ m.clkPin ∉ m.linePin.toList.filterMap id ∧
    m.latchPin ∉ m.linePin.toList.filterMap id ∧ (m.linePin.toList.filterMap id).Nodup := by
  have hnodup : (m.clkPin :: m.latchPin :: m.linePin.toList.filterMap id).Nodup := by
    simpa [Config.PinMap.valid, Config.PinMap.pins] using hvalid
  obtain ⟨hclk, hrest⟩ := List.nodup_cons.1 hnodup
  obtain ⟨hlatch, hlines⟩ := List.nodup_cons.1 hrest
  exact ⟨fun h => hclk (List.mem_cons.2 (.inl h)), fun h => hclk (List.mem_cons_of_mem _ h), hlatch, hlines⟩

theorem signalAt_latchPin : signalAt m m.latchPin = some .latch := by
  rw [signalAt, if_neg (pins_nodup hvalid).1.symm, if_pos rfl]

/-- In a valid map two lines on one pin are one line. -/
theorem line_eq_of_linePin_eq {l l' : LineIndex} {p : Config.Pin} (h : m.linePin.get l = some p)
    (h' : m.linePin.get l' = some p) : l = l' := by
  have hpair := List.pairwise_filterMap.1 (pins_nodup hvalid).2.2.2
  have hlen : m.linePin.toList.length = 20 := Vector.length_toList
  have hget : ∀ k : LineIndex, m.linePin.toList[k.val]'(k.isLt.trans_eq hlen.symm) = m.linePin.get k := fun k => rfl
  by_contra hne
  rcases Nat.lt_or_gt_of_ne (fun hv => hne (Fin.ext hv)) with hlt | hlt
  · exact List.pairwise_iff_getElem.1 hpair l l' _ _ hlt p ((hget l).trans h) p ((hget l').trans h') rfl
  · exact List.pairwise_iff_getElem.1 hpair l' l _ _ hlt p ((hget l').trans h') p ((hget l).trans h) rfl

theorem signalAt_linePin {l : LineIndex} {p : Config.Pin} (h : m.linePin.get l = some p) :
    signalAt m p = some (.data l) := by
  obtain ⟨-, hclk, hlatch, -⟩ := pins_nodup hvalid
  have hmem := mem_linePins h
  rw [signalAt_of_ne (fun hp => hclk (hp ▸ hmem)) (fun hp => hlatch (hp ▸ hmem))]
  cases hfind : allLines.find? (fun l' => m.linePin.get l' == some p) with
  | none => exact absurd (beq_iff_eq.2 h) (List.find?_eq_none.1 hfind l (mem_allLines l))
  | some l' =>
    have hpin : m.linePin.get l' = some p := beq_iff_eq.1 (List.find?_some hfind :)
    rw [line_eq_of_linePin_eq hvalid h hpin]
    rfl

end valid

/-- A pin the map does not name carries no wire. -/
theorem signalAt_of_not_mem {p : Config.Pin} (h : p ∉ m.pins) : signalAt m p = none := by
  rw [Config.PinMap.pins, List.mem_cons, List.mem_cons, not_or, not_or] at h
  obtain ⟨hclk, hlatch, hlines⟩ := h
  rw [signalAt_of_ne hclk hlatch, Option.map_eq_none_iff, List.find?_eq_none]
  exact fun l _ hpin => hlines (mem_linePins (beq_iff_eq.1 hpin))

end pins

/-- The level of a pin of a routed and loaded block is OUT's bit of its wire (R172). -/
theorem pinLevelUnder_of_signalAt {m : Config.PinMap} {s : State} {p : Config.Pin} {g : Signal} (n : Nat)
    (hroute : s.route = true) (hvalid : s.outValid = true) (h : signalAt m p = some g) :
    State.pinLevelUnder m s n p = some (s.out.getLsbD g.bit) := by
  rw [State.pinLevelUnder, h, Option.map_some, State.signalLevel, hroute, hvalid]
  rfl

/-- Settles O46, by the wire each pin carries. -/
theorem pinsCarryTheirBits : Obligations.PinsCarryTheirBits := by
  intro m s n hvalid hroute hloaded
  refine ⟨pinLevelUnder_of_signalAt n hroute hloaded signalAt_clkPin,
    pinLevelUnder_of_signalAt n hroute hloaded (signalAt_latchPin hvalid),
    fun l p hp => pinLevelUnder_of_signalAt n hroute hloaded (signalAt_linePin hvalid hp), fun p hp => ?_⟩
  rw [State.pinLevelUnder, signalAt_of_not_mem hp]
  rfl

end Sys2Proof.Machine
end

section
/-! SUPPORT. A digit cycle in the receiver: the invariant of the receiver from frame to frame, whatever of old and new the
words carry, and what it latches (43_replay_engine.md R175 to R182). -/

namespace Sys2Proof.Machine

/-! ### What BUF shows of a digit cycle -/

/-- What a line's receiver is to latch from a digit cycle: the segment byte above the digit selector byte (R177). -/
def decoded (m : Memory) (l : LineIndex) (d : DigitIndex) : BitVec 16 := decodeSeg m l d ++ decodeSel m l d

/-- Bit i of it is the line's bit in the clock frame of pair 15 - i. -/
theorem getLsbD_decoded (m : Memory) (l : LineIndex) (d : DigitIndex) {i : Nat} (hi : i < 16) :
    (decoded m l d).getLsbD i = (Memory.readWord m (wordAt d (2 * (15 - i) + 1))).getLsbD (lineBit l) := by
  rw [decoded, BitVec.getLsbD_append]
  by_cases hsel : i < 8
  · rw [if_pos hsel, getLsbD_decodeSel m l d hsel]
  · rw [if_neg hsel, getLsbD_decodeSeg m l d (by omega), show 7 - (i - 8) = 15 - i by omega]

/-- Its low byte is the digit selector's. -/
theorem getLsbD_decoded_low (m : Memory) (l : LineIndex) (d : DigitIndex) {i : Nat} (hi : i < 8) :
    (decoded m l d).getLsbD i = (decodeSel m l d).getLsbD i := by
  rw [decoded, BitVec.getLsbD_append, if_pos hi]

/-- Every data frame of a cold or built line carries its pair's bit. -/
theorem getLsbD_frame_of_lineColdOrBuilt {m : Memory} {l : LineIndex} (h : LineColdOrBuilt m l) (d : DigitIndex) {f : Nat}
    (hf : f < 32) : (Memory.readWord m (wordAt d f)).getLsbD (lineBit l) = (decoded m l d).getLsbD (15 - f / 2) := by
  rw [getLsbD_decoded m l d (by omega), show 15 - (15 - f / 2) = f / 2 by omega, getLsbD_frame_eq_clockFrame h d hf]

/-- A built line's digit-select bits are the digit selector's. -/
theorem decodeSel_of_lineBuilt {m : Memory} {l : LineIndex} {line : LineBuffer} (h : LineBuilt m l line)
    (d : DigitIndex) : decodeSel m l d = 1#8 <<< d.val :=
  (decode_of_pairBits fun f hf => by rw [getLsbD_frame_of_lineBuilt h d (by omega), if_pos hf]).2

/-- A cold or built line's digit-select bits are 1 or the digit selector's. -/
theorem getLsbD_decodeSel_of_lineColdOrBuilt {m : Memory} {l : LineIndex} (h : LineColdOrBuilt m l) (d : DigitIndex)
    {i : Nat} (hi : i < 8) : (decodeSel m l d).getLsbD i = true ∨ (decodeSel m l d).getLsbD i = decide (i = d.val) := by
  rcases h with hcold | ⟨line, hbuilt⟩
  · rw [(decode_of_lineCold hcold d).2]
    exact .inl (getLsbD_allOnes_byte hi)
  · rw [decodeSel_of_lineBuilt hbuilt d]
    exact .inr (getLsbD_digitSel d i)

/-! ### The receiver -/

section receive

variable {r : Receiver} {l : LineIndex} {draw : Bool} {prev cur : Word}

theorem receive_q_of_low (hlatch : cur.getLsbD Config.latchBit = false) : (r.receive l draw prev cur).q = r.q := by
  rw [Receiver.receive, latchRises_of_low hlatch]
  rfl

theorem receive_sr_of_low (hclk : cur.getLsbD Config.clkBit = false) : (r.receive l draw prev cur).sr = r.sr := by
  rw [Receiver.receive, clkRises_of_low hclk]
  rfl

/-- At a rising edge of CLK the taken bit is shifted in at the low end (R176). -/
theorem getLsbD_receive_sr_of_rise (hrise : clkRises prev cur = true) {i : Nat} (hi : i < 16) :
    (r.receive l draw prev cur).sr.getLsbD i =
      if i = 0 then takenBit l draw prev cur else r.sr.getLsbD (i - 1) := by
  rw [Receiver.receive, if_pos hrise]
  generalize takenBit l draw prev cur = b
  by_cases h0 : i = 0
  · subst h0
    cases b <;> simp
  · have hlt : i - 1 < 16 := by omega
    cases b <;> simp [h0, hi, BitVec.getLsbD_eq_getElem hlt]

/-- At a rising edge of LATCH the outputs take the chain (R176). -/
theorem receive_q_of_rise (hrise : latchRises prev cur = true) :
    (r.receive l draw prev cur).q = (r.receive l draw prev cur).sr := by
  rw [Receiver.receive, hrise]
  rfl

/-- The taken bit is one of the two data bits, so what holds of both holds of it, whatever the draw (U9). -/
theorem takenBit_of_both {p : Bool → Prop} (hprev : p (prev.getLsbD (lineBit l))) (hcur : p (cur.getLsbD (lineBit l)))
    (draw : Bool) : p (takenBit l draw prev cur) := by
  unfold takenBit
  split
  case isTrue => exact hcur
  case isFalse hne =>
    by_cases hdraw : draw = cur.getLsbD (lineBit l)
    · rwa [hdraw]
    · have hprevdraw : draw = prev.getLsbD (lineBit l) := (Bool.eq_not.2 hdraw).trans (Bool.eq_not.2 hne).symm
      rwa [hprevdraw]

end receive

/-! ### A digit cycle, frame by frame -/

/-- What the word of frame f of a digit cycle is to the receiver of line l: the control bits of its frame, and in a data
frame a bit the predicate `ok` admits for the pair. -/
structure FrameWord (ok : Nat → Bool → Prop) (l : LineIndex) (f : Nat) (w : Word) : Prop where
  clk   : w.getLsbD Config.clkBit = decide (f < 32 ∧ f % 2 = 1)
  latch : w.getLsbD Config.latchBit = decide (33 ≤ f)
  line  : f < 32 → ok (f / 2) (w.getLsbD (lineBit l))

/-- With this BUF and this race, every TICK in digit cycle d samples such a word. -/
def Feeds (ok : Nat → Bool → Prop) (l : LineIndex) (d : DigitIndex) (m : Memory) (race : Option Memory) : Prop :=
  ∀ s : State, s.mem = m → s.race = race → ∀ f, f < 34 → s.rp.val = wordAt d f → FrameWord ok l f s.sampledWord

/-- The line's bits of digit cycle d, in a framed buffer, are all admitted. -/
structure Carries (ok : Nat → Bool → Prop) (l : LineIndex) (d : DigitIndex) (m : Memory) : Prop where
  framed : BufferFramed m
  line   : ∀ f, f < 32 → ok (f / 2) ((Memory.readWord m (wordAt d f)).getLsbD (lineBit l))

/-- The receiver of line l after f frames of digit cycle d: OUT holds the last frame's word, the chain ends in an admitted
bit for each pair whose clock frame has passed, the last one lowest, and the latch frame has latched it. -/
structure Received (ok : Nat → Bool → Prop) (l : LineIndex) (d : DigitIndex) (f : Nat) (s : State) (r : Receiver) :
    Prop where
  rp      : s.rp.val = wordAt d f % 272
  out     : f ≠ 0 → FrameWord ok l (f - 1) s.out
  taken   : ∀ k, k < min (f / 2) 16 → ok k (r.sr.getLsbD (min (f / 2) 16 - 1 - k))
  latched : 34 ≤ f → r.q = r.sr

section cycle

variable {ok : Nat → Bool → Prop} {l : LineIndex} {d : DigitIndex}

/-- A framed word of digit cycle d whose line bit is admitted. -/
theorem FrameWord.of_framed {f : Nat} {w : Word} (hf : f < 34) (h : WordFramed (wordAt d f) w)
    (hline : f < 32 → ok (f / 2) (w.getLsbD (lineBit l))) : FrameWord ok l f w := by
  have hframe := frameOf_wordAt d.val hf
  rw [frameOf_eq] at hframe
  have hclk := h.getLsbD_clk
  have hlatch := h.getLsbD_latch
  rw [hframe] at hclk hlatch
  exact ⟨hclk, hlatch, hline⟩

/-- A buffer that carries admitted bits feeds them. -/
theorem Carries.feeds {m : Memory} (h : Carries ok l d m) : Feeds ok l d m none := by
  rintro s rfl hrace f hf hrp
  rw [sampledWord_of_no_race hrace, hrp]
  exact .of_framed hf (h.framed _ (wordAt_lt d hf)) (h.line f)

/-- So does a race of two such buffers: each bit read is the old one's or the new one's (R58). -/
theorem Carries.feeds_race {old m : Memory} (hold : Carries ok l d old) (h : Carries ok l d m) :
    Feeds ok l d m (some old) := by
  rintro s rfl hrace f hf hrp
  have ha := wordAt_lt d hf
  rw [sampledWord_of_race hrace, hrp]
  refine .of_framed hf ((hold.framed _ ha).raceWord (h.framed _ ha) _) fun hdata => ?_
  rcases getLsbD_raceWord_or (Config.raceOldBits s.draws) (Memory.readWord old (wordAt d f))
    (Memory.readWord s.mem (wordAt d f)) (lineBit l) with hbit | hbit
  · rw [hbit]
    exact hold.line f hdata
  · rw [hbit]
    exact h.line f hdata

/-- At the start of a digit cycle nothing has been received of it. -/
theorem Received.start {s : State} (hrp : s.rp.val = d * 34) (r : Receiver) : Received ok l d 0 s r where
  rp := by
    have := d.isLt
    rw [wordAt_eq, hrp]
    omega
  out := fun h => absurd rfl h
  taken := fun k hk => by simp at hk
  latched := fun h => absurd h (by decide)

/-- What has been received depends on RP, OUT and the receiver only. -/
theorem Received.congr {f : Nat} {s t : State} {r : Receiver} (h : Received ok l d f s r) (hrp : t.rp = s.rp)
    (hout : t.out = s.out) : Received ok l d f t r :=
  ⟨hrp ▸ h.rp, hout ▸ h.out, h.taken, h.latched⟩

/-- RP moves from frame to frame. -/
theorem Received.rp_ticked {f : Nat} {s : State} {r : Receiver} (h : Received ok l d f s r) :
    s.ticked.rp.val = wordAt d (f + 1) % 272 := by
  rw [State.ticked_rp, nextWord_val, h.rp]
  simp only [wordAt_eq]
  omega

/-- The clock frame of a pair shifts an admitted bit in. -/
theorem Received.clockFrame {f : Nat} {s : State} {r : Receiver} (h : Received ok l d f s r) (hf : f < 32)
    (hodd : f % 2 = 1) (hw : FrameWord ok l f s.sampledWord) (draw : Bool) :
    Received ok l d (f + 1) s.ticked (r.receive l draw s.out s.ticked.out) := by
  have hout := h.out (by omega)
  have hpair : (f - 1) / 2 = f / 2 := by omega
  have hrise : clkRises s.out s.ticked.out = true := by
    rw [clkRises, hout.clk, State.ticked_out, hw.clk, decide_eq_false (by omega), decide_eq_true ⟨hf, hodd⟩]
    rfl
  refine ⟨h.rp_ticked, fun _ => hw, fun k hk => ?_, fun h34 => absurd h34 (by omega)⟩
  rw [show min ((f + 1) / 2) 16 = f / 2 + 1 by omega] at hk ⊢
  rw [getLsbD_receive_sr_of_rise hrise (by omega)]
  by_cases hlast : k = f / 2
  · subst hlast
    rw [if_pos (by omega)]
    exact takenBit_of_both (hpair ▸ hout.line (by omega)) (hw.line hf) draw
  · rw [if_neg (by omega)]
    have htaken := h.taken k (by omega)
    rwa [show min (f / 2) 16 - 1 - k = f / 2 + 1 - 1 - k - 1 by omega] at htaken

/-- A frame without a clock pulse shifts nothing; the latch frame latches. -/
theorem Received.otherFrame {f : Nat} {s : State} {r : Receiver} (h : Received ok l d f s r) (hf : f < 34)
    (hlow : ¬(f < 32 ∧ f % 2 = 1)) (hw : FrameWord ok l f s.sampledWord) (draw : Bool) :
    Received ok l d (f + 1) s.ticked (r.receive l draw s.out s.ticked.out) := by
  have hclk : s.ticked.out.getLsbD Config.clkBit = false := hw.clk.trans (decide_eq_false hlow)
  have hsr : (r.receive l draw s.out s.ticked.out).sr = r.sr := receive_sr_of_low hclk
  refine ⟨h.rp_ticked, fun _ => hw, fun k hk => ?_, fun h34 => ?_⟩
  · rw [show min ((f + 1) / 2) 16 = min (f / 2) 16 by omega] at hk ⊢
    rw [hsr]
    exact h.taken k hk
  · refine receive_q_of_rise ?_
    rw [latchRises, (h.out (by omega)).latch, State.ticked_out, hw.latch, decide_eq_false (by omega),
      decide_eq_true (by omega)]
    rfl

/-- One TICK of the digit cycle. -/
theorem Received.tick {f : Nat} {s : State} {r : Receiver} (h : Received ok l d f s r)
    (hfeeds : Feeds ok l d s.mem s.race) (hf : f < 34) (draw : Bool) :
    Received ok l d (f + 1) s.ticked (r.receive l draw s.out s.ticked.out) := by
  have hrp : s.rp.val = wordAt d f := h.rp.trans (Nat.mod_eq_of_lt (wordAt_lt d hf))
  have hw := hfeeds s rfl rfl f hf hrp
  by_cases hclock : f < 32 ∧ f % 2 = 1
  · exact h.clockFrame hclock.1 hclock.2 hw draw
  · exact h.otherFrame hf hclock hw draw

/-- A run of TICKs within the digit cycle. -/
theorem Received.watchTicks {f n : Nat} {s : State} {r : Receiver} (h : Received ok l d f s r)
    (hfeeds : Feeds ok l d s.mem s.race) (hn : f + n ≤ 34) (draw : Nat → Bool) :
    Received ok l d (f + n) (watchTicks l draw n s r).1 (watchTicks l draw n s r).2 := by
  induction n generalizing f s r with
  | zero => exact h
  | succ n ih =>
    rw [watchTicks_succ, show f + (n + 1) = f + 1 + n by omega]
    exact ih (h.tick hfeeds (by omega) (draw n)) hfeeds (by omega)

/-- The observer does not disturb the block. -/
theorem watchTicks_fst (l : LineIndex) (draw : Nat → Bool) (n : Nat) (s : State) (r : Receiver) :
    (Machine.watchTicks l draw n s r).1 = tickTimes n s := by
  induction n generalizing s r with
  | zero => rfl
  | succ n ih => rw [watchTicks_succ, tickTimes_succ, ih]

/-- The rest of a digit cycle, n TICKs of it inside a command and the others after its return. -/
theorem Received.inside_after {f n a : Nat} {t : State} {r : Receiver} (h : Received ok l d f t r)
    (hinside : Feeds ok l d t.mem t.race) (hafter : Feeds ok l d t.mem none) (hn : f + n + a = 34)
    (drawIn drawAfter : Nat → Bool) :
    let inside := Machine.watchTicks l drawIn n t r
    let after := Machine.watchTicks l drawAfter a { inside.1 with race := none } inside.2
    Received ok l d 34 after.1 after.2 := by
  intro inside after
  have hreceived := h.watchTicks hinside (n := n) (by omega) drawIn
  have hmem : inside.1.mem = t.mem := by
    rw [show inside.1 = tickTimes n t from watchTicks_fst ..]
    exact (tickTimes_frame n t).2.1
  have hreturned : Received ok l d (f + n) { inside.1 with race := none } inside.2 := hreceived.congr rfl rfl
  have hdone := hreturned.watchTicks (n := a) (by rw [hmem]; exact hafter) (by omega) drawAfter
  rwa [hn] at hdone

/-- A whole digit cycle leaves in the outputs an admitted bit for each pair, the first one highest. -/
theorem Received.getLsbD_q {s : State} {r : Receiver} (h : Received ok l d 34 s r) {i : Nat} (hi : i < 16) :
    ok (15 - i) (r.q.getLsbD i) := by
  have htaken := h.taken (15 - i) (by omega)
  rwa [show min (34 / 2) 16 - 1 - (15 - i) = i by omega, ← h.latched (by decide)] at htaken

end cycle

/-! ### A whole digit cycle without a race -/

/-- Admits the pair's bit of one buffer. -/
def BitOf (m : Memory) (l : LineIndex) (d : DigitIndex) (k : Nat) (b : Bool) : Prop :=
  b = (decoded m l d).getLsbD (15 - k)

/-- Admits the pair's bit of either of two buffers (R58, R182). -/
def BitOfEither (old new : Memory) (l : LineIndex) (d : DigitIndex) (k : Nat) (b : Bool) : Prop :=
  b = (decoded old l d).getLsbD (15 - k) ∨ b = (decoded new l d).getLsbD (15 - k)

section carries

variable {m : Memory} {l : LineIndex} (hframed : BufferFramed m) (hl : LineColdOrBuilt m l) (d : DigitIndex)
include hframed hl

theorem carries_bitOf : Carries (BitOf m l d) l d m :=
  ⟨hframed, fun _ hf => getLsbD_frame_of_lineColdOrBuilt hl d hf⟩

theorem carries_bitOfEither_old (new : Memory) : Carries (BitOfEither m new l d) l d m :=
  ⟨hframed, fun _ hf => .inl (getLsbD_frame_of_lineColdOrBuilt hl d hf)⟩

theorem carries_bitOfEither_new (old : Memory) : Carries (BitOfEither old m l d) l d m :=
  ⟨hframed, fun _ hf => .inr (getLsbD_frame_of_lineColdOrBuilt hl d hf)⟩

end carries

/-- After a digit cycle without a race the outputs are what BUF decodes to. -/
theorem Received.q_eq_decoded {m : Memory} {l : LineIndex} {d : DigitIndex} {s : State} {r : Receiver}
    (h : Received (BitOf m l d) l d 34 s r) : r.q = decoded m l d := by
  refine BitVec.eq_of_getLsbD_eq fun i hi => ?_
  have hbit : r.q.getLsbD i = (decoded m l d).getLsbD (15 - (15 - i)) := h.getLsbD_q hi
  rwa [show 15 - (15 - i) = i by omega] at hbit

theorem watchTicks_add (l : LineIndex) (draw : Nat → Bool) (n k : Nat) (s : State) (r : Receiver) :
    watchTicks l draw (n + k) s r = watchTicks l draw k (watchTicks l (fun j => draw (j + k)) n s r).1
      (watchTicks l (fun j => draw (j + k)) n s r).2 := by
  induction n generalizing s r with
  | zero => rw [Nat.zero_add, watchTicks_zero]
  | succ n ih => rw [show n + 1 + k = n + k + 1 by omega, watchTicks_succ, watchTicks_succ, ih]

/-- The outputs hold up to the next latch frame (R177). -/
theorem watchTicks_q_of_no_latch {s : State} (hrace : s.race = none) (hframed : BufferFramed s.mem) (l : LineIndex)
    (draw : Nat → Bool) (r : Receiver) {n : Nat} (hn : s.rp.val % 34 + n ≤ 33) : (watchTicks l draw n s r).2.q = r.q := by
  induction n generalizing s r with
  | zero => rfl
  | succ n ih =>
    have hlow : s.ticked.out.getLsbD Config.latchBit = false := by
      rw [State.ticked_out, sampledWord_of_no_race hrace, (hframed _ s.rp.isLt).getLsbD_latch]
      exact decide_eq_false (by omega)
    have hrp : s.ticked.rp.val % 34 + n ≤ 33 := by
      rw [State.ticked_rp, nextWord_val]
      omega
    rw [watchTicks_succ, ih (s := s.ticked) hrace hframed _ hrp, receive_q_of_low hlow]

/-- Settles O43: the first 34 TICKs are the digit cycle, and the others stop before the next latch frame. -/
theorem receiverLatchesTheDigitCycle : Obligations.ReceiverLatchesTheDigitCycle := by
  intro s r draw l d _ hrace hframed hl hrp
  have hfeeds : Feeds (BitOf s.mem l d) l d s.mem s.race := by
    rw [hrace]
    exact (carries_bitOf hframed hl d).feeds
  have hcycle : ∀ draw', (watchTicks l draw' 34 s r).2.q = decoded s.mem l d := fun draw' => by
    have hreceived := (Received.start hrp r).watchTicks hfeeds (n := 34) (by omega) draw'
    rw [Nat.zero_add] at hreceived
    exact hreceived.q_eq_decoded
  refine ⟨fun n hn => ?_, fun ⟨line, hbuilt⟩ => decodeSel_of_lineBuilt hbuilt d, fun hcold => ?_⟩
  · obtain ⟨-, hmem, -, hrace', -⟩ := tickTimes_frame 34 s
    have hrp' := tickTimes_rp 34 s
    have hframed' : BufferFramed (tickTimes 34 s).mem := by rwa [hmem]
    rw [watchTicks_add, watchTicks_fst, watchTicks_q_of_no_latch (hrace'.trans hrace) hframed' l draw _ (by omega)]
    exact hcycle _
  · obtain ⟨hseg, hsel⟩ := decode_of_lineCold hcold d
    rw [hcycle, decoded, hseg, hsel]
    rfl

/-! ### A digit cycle with a rebuild in it -/

section mixed

variable {old new : Memory} {l : LineIndex} {d : DigitIndex} {s : State} {r : Receiver}
  (h : Received (BitOfEither old new l d) l d 34 s r)
include h

/-- The outputs are, bit by bit, what the old or the new buffer decodes to (R182). -/
theorem Received.q_old_or_new {i : Nat} (hi : i < 16) :
    r.q.getLsbD i = (decoded old l d).getLsbD i ∨ r.q.getLsbD i = (decoded new l d).getLsbD i := by
  have hbit : r.q.getLsbD i = (decoded old l d).getLsbD (15 - (15 - i)) ∨
      r.q.getLsbD i = (decoded new l d).getLsbD (15 - (15 - i)) := h.getLsbD_q hi
  rwa [show 15 - (15 - i) = i by omega] at hbit

/-- Where both buffers decode alike the outputs are exact. -/
theorem Received.q_eq_of_decoded_eq (heq : decoded new l d = decoded old l d) : r.q = decoded old l d := by
  refine BitVec.eq_of_getLsbD_eq fun i hi => ?_
  have hbit := h.q_old_or_new hi
  rwa [heq, or_self] at hbit

/-- The digit-select bits of a line cold or built in both buffers are 1 or the digit selector's. -/
theorem Received.getLsbD_q_sel (hold : LineColdOrBuilt old l) (hnew : LineColdOrBuilt new l) {i : Nat} (hi : i < 8) :
    r.q.getLsbD i = true ∨ r.q.getLsbD i = decide (i = d.val) := by
  rcases h.q_old_or_new (i := i) (by omega) with hbit | hbit
  · rw [hbit, getLsbD_decoded_low old l d hi]
    exact getLsbD_decodeSel_of_lineColdOrBuilt hold d hi
  · rw [hbit, getLsbD_decoded_low new l d hi]
    exact getLsbD_decodeSel_of_lineColdOrBuilt hnew d hi

/-- The digit-select bits of a line built in both buffers are the digit selector's. -/
theorem Received.q_sel_of_lineBuilt (hold : ∃ line, LineBuilt old l line) (hnew : ∃ line, LineBuilt new l line) :
    r.q.extractLsb' 0 8 = 1#8 <<< d.val := by
  obtain ⟨line, hold⟩ := hold
  obtain ⟨line', hnew⟩ := hnew
  refine BitVec.eq_of_getLsbD_eq fun i hi => ?_
  have hbit := h.q_old_or_new (i := i) (by omega)
  rw [getLsbD_decoded_low old l d hi, getLsbD_decoded_low new l d hi, decodeSel_of_lineBuilt hold d,
    decodeSel_of_lineBuilt hnew d, or_self] at hbit
  rw [BitVec.getLsbD_extractLsb', Nat.zero_add, hbit, decide_eq_true hi, Bool.true_and]

end mixed

/-- Settles O45: the digit cycle begins inside the command, with nothing of it received yet. -/
theorem racingDigitCycleMixesOldAndNewBits : Obligations.RacingDigitCycleMixesOldAndNewBits := by
  intro s old r drawIn drawAfter l d n a _ hrace hfold hfnew hlold hlnew hrp hna inside after
  have hold := carries_bitOfEither_old hfold hlold d s.mem
  have hnew := carries_bitOfEither_new hfnew hlnew d old
  have hcycle : Received (BitOfEither old s.mem l d) l d 34 after.1 after.2 :=
    (Received.start hrp r).inside_after (hrace ▸ hold.feeds_race hnew) hnew.feeds (by omega) drawIn drawAfter
  exact ⟨fun i hi => hcycle.q_old_or_new hi, fun i hi => hcycle.getLsbD_q_sel hlold hlnew hi,
    fun hbold hbnew => hcycle.q_sel_of_lineBuilt hbold hbnew⟩

/-- BUF as it was, or with some lines rebuilt. -/
def KeptOrRebuilt (m m' : Memory) : Prop := m' = m ∨ ∃ lb lines, m' = buildLines lb lines m

section rebuilt

variable {m m' : Memory} (h : KeptOrRebuilt m m')
include h

theorem KeptOrRebuilt.framed (hframed : BufferFramed m) : BufferFramed m' := by
  rcases h with rfl | ⟨lb, lines, rfl⟩
  · exact hframed
  · exact bufferFramed_buildLines hframed lb lines

theorem KeptOrRebuilt.lineColdOrBuilt {l : LineIndex} (hl : LineColdOrBuilt m l) : LineColdOrBuilt m' l := by
  rcases h with rfl | ⟨lb, lines, rfl⟩
  · exact hl
  · exact lineColdOrBuilt_buildLines hl lb lines

/-- A line built stays built, from some cells. -/
theorem KeptOrRebuilt.lineBuilt {l : LineIndex} (hl : ∃ line, LineBuilt m l line) : ∃ line, LineBuilt m' l line := by
  rcases h with rfl | ⟨lb, lines, rfl⟩
  · exact hl
  · by_cases hmem : l ∈ lines
    · exact ⟨_, lineBuilt_buildLines_of_mem hmem (.inr hl)⟩
    · obtain ⟨line, hbuilt⟩ := hl
      refine ⟨line, fun a ha => ?_⟩
      rw [getLsbD_buildLines_of_ne (fun l' hl' he => hmem (by rwa [← lineBit_injective he])), hbuilt a ha]

end rebuilt

/-- What a command but START and STOP does to a Running block with no race: RP and OUT stay, BUF is kept or rebuilt, and
only the contents it had can be kept for a race. -/
theorem exec_keeps_or_rebuilds {i : Instr} {s t : State} (hcommand : i.isCommand = true) (hstart : i ≠ .start)
    (hstop : i ≠ .stop) (hrunning : s.life = .running) (hrace : s.race = none) (h : exec i s = .next t) :
    t.rp = s.rp ∧ t.out = s.out ∧ KeptOrRebuilt s.mem t.mem ∧ (t.race = none ∨ t.race = some s.mem) := by
  rcases exec_cases h with rfl | ⟨-, -, rfl⟩ | ⟨-, heffect⟩
  · exact ⟨rfl, rfl, .inl rfl, .inl hrace⟩
  · exact ⟨rfl, rfl, .inl rfl, .inl hrace⟩
  · cases heffect with
    | configure hlife => exact absurd (hrunning.symm.trans hlife) (by decide)
    | start => exact absurd rfl hstart
    | stop => exact absurd rfl hstop
    | displayText => exact ⟨rfl, rfl, .inr ⟨_, _, rfl⟩, .inr (if_pos hrunning)⟩
    | set => exact ⟨rfl, rfl, .inl rfl, .inl hrace⟩
    | flush => exact ⟨rfl, rfl, .inr ⟨_, _, rfl⟩, .inr (if_pos hrunning)⟩
    | tick => cases hcommand

/-- DISPLAY_TEXT on another line changes nothing of what BUF shows of a line. -/
theorem decoded_of_displayText {s t : State} {other l : LineIndex} {text : List Byte} (hne : other ≠ l)
    (h : exec (.displayText other.val text) s = .next t) (d : DigitIndex) : decoded t.mem l d = decoded s.mem l d := by
  rcases exec_cases h with rfl | ⟨-, -, rfl⟩ | ⟨-, heffect⟩
  · rfl
  · rfl
  · cases heffect
    rw [toLine_coe]
    obtain ⟨hseg, hsel⟩ := decode_congr (l := l) (d := d) fun f _ => getLsbD_textShown_of_ne s hne.symm text (wordAt d f)
    rw [decoded, hseg, hsel, decoded]

/-- Settles O52: the frames before the command carry the old bits, those inside it and after it the old or the new. -/
theorem rebuildInMidCycleMixesOldAndNewBits : Obligations.RebuildInMidCycleMixesOldAndNewBits := by
  intro i s t r drawBefore drawIn drawAfter l d b n a hcommand hstart hstop hrunning hrace hframed hl hrp hbna before hexec
    inside after
  have hbefore : before.1 = tickTimes b s := watchTicks_fst ..
  obtain ⟨hlife, hmem, -, hrace', -⟩ := tickTimes_frame b s
  rw [← hbefore] at hlife hmem hrace'
  obtain ⟨htrp, htout, hrebuilt, htrace⟩ :=
    exec_keeps_or_rebuilds hcommand hstart hstop (hlife.trans hrunning) (hrace'.trans hrace) hexec
  rw [hmem] at hrebuilt htrace
  have htl := hrebuilt.lineColdOrBuilt hl
  have hold := carries_bitOfEither_old hframed hl d t.mem
  have hnew := carries_bitOfEither_new (hrebuilt.framed hframed) htl d s.mem
  have hfeedsBefore : Feeds (BitOfEither s.mem t.mem l d) l d s.mem s.race := by
    rw [hrace]
    exact hold.feeds
  have hfeedsInside : Feeds (BitOfEither s.mem t.mem l d) l d t.mem t.race := by
    rcases htrace with h | h <;> rw [h]
    · exact hnew.feeds
    · exact hold.feeds_race hnew
  have hcycle : Received (BitOfEither s.mem t.mem l d) l d 34 after.1 after.2 :=
    (((Received.start hrp r).watchTicks hfeedsBefore (by omega) drawBefore).congr htrp htout).inside_after hfeedsInside
      hnew.feeds (by omega) drawIn drawAfter
  refine ⟨fun j hj => hcycle.q_old_or_new hj, fun j hj => hcycle.getLsbD_q_sel hl htl hj,
    fun hbuilt => hcycle.q_sel_of_lineBuilt hbuilt (hrebuilt.lineBuilt hbuilt), fun other text hi hne => ?_⟩
  subst hi
  have hsame := decoded_of_displayText hne hexec d
  rw [hmem] at hsame
  exact hcycle.q_eq_of_decoded_eq hsame

end Sys2Proof.Machine
end
